-- ==== Sys2Proof/Word.lean ====
section
/-! DEFINITION. The word types of MM-CORE (`00_scope.md` R8, R11, R12). -/

namespace Sys2Proof

/-- A byte of the text buffer, a character (`00_scope.md` R15). -/
abbrev Byte := BitVec 8

/-- One 64-bit limb, and one word of the host window (`00_scope.md` R8). -/
abbrev Limb := BitVec 64

/-- A magnitude: an unsigned integer in [0, 2^256 − 1] (`00_scope.md` R8, R16). -/
abbrev Magnitude := BitVec 256

/-- A 32-bit command word (`30_encoding.md` R80). -/
abbrev CommandWord := BitVec 32

/-- An offset in the 4096-byte window (`20_memory.md` R50). -/
abbrev Offset := BitVec 12

/-- A register number: it names `Vn` directly, `n` in 0..15 (`30_encoding.md` R81). -/
abbrev RegNum := Fin 16

end Sys2Proof
end

