-- ==== Sys2Proof/Syntax.lean ====
section
/-! DEFINITION. The nine commands of MM-CORE (`00_scope.md` R5), operands in the order of the
assembler syntax (`30_encoding.md` R88). -/

namespace Sys2Proof

/-- A command with its register numbers, one constructor for each row of the opcode map (`30_encoding.md` R82). -/
inductive Instr where
  /-- `ADD Vd, Va, Vb` (`40_kernel.md` R101) -/
  | add (rd rs1 rs2 : RegNum)
  /-- `SUB Vd, Va, Vb` (`40_kernel.md` R104) -/
  | sub (rd rs1 rs2 : RegNum)
  /-- `LT Va, Vb` (`40_kernel.md` R107) -/
  | lt (rs1 rs2 : RegNum)
  /-- `MUL Vd, Va, Vb` (`40_kernel.md` R110) -/
  | mul (rd rs1 rs2 : RegNum)
  /-- `DIV Vq, Va, Vb` (`41_division.md` R121) -/
  | div (rd rs1 rs2 : RegNum)
  /-- `MOD Vr, Va, Vb` (`41_division.md` R122) -/
  | mod (rd rs1 rs2 : RegNum)
  /-- `DIVMOD Vq, Vr, Va, Vb` (`41_division.md` R123) -/
  | divmod (rd rd2 rs1 rs2 : RegNum)
  /-- `PARSE Vd` (`42_codec.md` R141) -/
  | parse (rd : RegNum)
  /-- `FORMAT Va` (`42_codec.md` R152) -/
  | format (rs1 : RegNum)
  deriving DecidableEq, Repr

end Sys2Proof
end

