-- ==== Sys2Proof/WellFormed.lean ====
section
/-! DEFINITION. The one condition on a command that its type does not already hold (`30_encoding.md` R84).
The range of a register number is in the type `RegNum`. -/

namespace Sys2Proof

/-- A DIVMOD must name two different destinations; every other command allows any register numbers
(`30_encoding.md` R84). -/
def Instr.wellFormed : Instr → Bool
  | .add _ _ _ => true
  | .sub _ _ _ => true
  | .lt _ _ => true
  | .mul _ _ _ => true
  | .div _ _ _ => true
  | .mod _ _ _ => true
  | .divmod rd rd2 _ _ => rd != rd2
  | .parse _ => true
  | .format _ => true

end Sys2Proof
end

