-- ==== Sys2Proof/Decode.lean ====
section
/-! DEFINITION. The command word: the opcode map, the decoder (total, rejecting by name) and the encoder
(`30_encoding.md` R80 to R88). -/

namespace Sys2Proof

/-- The nine operation codes that have a row in the opcode map (`30_encoding.md` R82). -/
inductive Opcode where
  | add | sub | lt | mul | div | mod | divmod | parse | format
  deriving DecidableEq, Repr

/-- Why a CMD write carries no command (`30_encoding.md` R86). -/
inductive DecodeError where
  /-- Bits [63:32] of the CMD write are not zero (R86 a). -/
  | highBitsSet
  /-- The operation code has no row (R85, R86 b). -/
  | unknownOpcode (op : BitVec 8)
  /-- A field the command does not use is not zero (R86 b). -/
  | unusedFieldSet (op : Opcode)
  /-- A DIVMOD names one register as both destinations (R84, R86 c). -/
  | sameDestination (rd : RegNum)
  deriving DecidableEq, Repr

/-- The rows of the opcode map, in its order (`30_encoding.md` R82). -/
def Opcode.all : List Opcode := [.add, .sub, .lt, .mul, .div, .mod, .divmod, .parse, .format]

/-- Column `mnemonic` of the opcode map (`30_encoding.md` R82). -/
def Opcode.mnemonic : Opcode → String
  | .add => "ADD"
  | .sub => "SUB"
  | .lt => "LT"
  | .mul => "MUL"
  | .div => "DIV"
  | .mod => "MOD"
  | .divmod => "DIVMOD"
  | .parse => "PARSE"
  | .format => "FORMAT"

/-- Column `op` of the opcode map (`30_encoding.md` R82). -/
def Opcode.code : Opcode → BitVec 8
  | .add => 0x01
  | .sub => 0x02
  | .lt => 0x03
  | .mul => 0x04
  | .div => 0x08
  | .mod => 0x09
  | .divmod => 0x0A
  | .parse => 0x10
  | .format => 0x11

/-- Column `match` of the opcode map (`30_encoding.md` R82). -/
def Opcode.pattern : Opcode → CommandWord
  | .add => 0x00000001
  | .sub => 0x00000002
  | .lt => 0x00000003
  | .mul => 0x00000004
  | .div => 0x00000008
  | .mod => 0x00000009
  | .divmod => 0x0000000A
  | .parse => 0x00000010
  | .format => 0x00000011

/-- Column `mask` of the opcode map (`30_encoding.md` R82). -/
def Opcode.mask : Opcode → CommandWord
  | .add => 0xFFF000FF
  | .sub => 0xFFF000FF
  | .lt => 0xFFF00FFF
  | .mul => 0xFFF000FF
  | .div => 0xFFF000FF
  | .mod => 0xFFF000FF
  | .divmod => 0xFF0000FF
  | .parse => 0xFFFFF0FF
  | .format => 0xFFFF0FFF

/-- The command's operation code. -/
def Instr.opcode : Instr → Opcode
  | .add _ _ _ => .add
  | .sub _ _ _ => .sub
  | .lt _ _ => .lt
  | .mul _ _ _ => .mul
  | .div _ _ _ => .div
  | .mod _ _ _ => .mod
  | .divmod _ _ _ _ => .divmod
  | .parse _ => .parse
  | .format _ => .format

/-- Field `op`, bits [7:0] (`30_encoding.md` R80). -/
def opField (w : CommandWord) : BitVec 8 := w.extractLsb' 0 8

/-- The 4-bit register field whose lowest bit is bit `lo` (`30_encoding.md` R80, R81). -/
def regField (lo : Nat) (w : CommandWord) : RegNum := (w.extractLsb' lo 4).toFin

/-- Field `rd`, bits [11:8]. -/
def rdField (w : CommandWord) : RegNum := regField 8 w
/-- Field `rs1`, bits [15:12]. -/
def rs1Field (w : CommandWord) : RegNum := regField 12 w
/-- Field `rs2`, bits [19:16]. -/
def rs2Field (w : CommandWord) : RegNum := regField 16 w
/-- Field `rd2`, bits [23:20]. -/
def rd2Field (w : CommandWord) : RegNum := regField 20 w

/-- The row whose operation code is `b`, if there is one (`30_encoding.md` R82, R85). -/
def Opcode.ofCode (b : BitVec 8) : Option Opcode := Opcode.all.find? (fun o => o.code == b)

/-- The command of row `o` with the register fields of `w` (`30_encoding.md` R82), less R84's condition. -/
def Opcode.withFields (o : Opcode) (w : CommandWord) : Instr :=
  match o with
  | .add => .add (rdField w) (rs1Field w) (rs2Field w)
  | .sub => .sub (rdField w) (rs1Field w) (rs2Field w)
  | .lt => .lt (rs1Field w) (rs2Field w)
  | .mul => .mul (rdField w) (rs1Field w) (rs2Field w)
  | .div => .div (rdField w) (rs1Field w) (rs2Field w)
  | .mod => .mod (rdField w) (rs1Field w) (rs2Field w)
  | .divmod => .divmod (rdField w) (rd2Field w) (rs1Field w) (rs2Field w)
  | .parse => .parse (rdField w)
  | .format => .format (rs1Field w)

/-- The command a 32-bit word carries, or why it carries none. It switches on `op`, then checks that the unused fields
are zero (`30_encoding.md` R83), then R84's condition. -/
def decode (w : CommandWord) : Except DecodeError Instr :=
  match Opcode.ofCode (opField w) with
  | none => .error (.unknownOpcode (opField w))
  | some o =>
    if w &&& o.mask = o.pattern then
      if (o.withFields w).wellFormed then .ok (o.withFields w) else .error (.sameDestination (rdField w))
    else .error (.unusedFieldSet o)

/-- The command a 64-bit CMD write carries, or why it carries none: bits [63:32] must be zero
(`10_state.md` R29, `30_encoding.md` R86 a). -/
def decodeCmdWrite (w : Limb) : Except DecodeError Instr :=
  if w.extractLsb' 32 32 = 0 then decode (w.extractLsb' 0 32) else .error .highBitsSet

/-- A register number at bit `lo` of a command word (`30_encoding.md` R88). -/
def placeReg (n : RegNum) (lo : Nat) : CommandWord := BitVec.ofNat 32 n.val <<< lo

/-- `op | rd<<8 | rs1<<12 | rs2<<16 | rd2<<20`, with unused fields 0 (`30_encoding.md` R88). -/
def assembleWord (o : Opcode) (rd rs1 rs2 rd2 : RegNum) : CommandWord :=
  o.code.setWidth 32 ||| placeReg rd 8 ||| placeReg rs1 12 ||| placeReg rs2 16 ||| placeReg rd2 20

/-- The 32-bit word of a command (`30_encoding.md` R82, R88). -/
def encode : Instr → CommandWord
  | .add rd rs1 rs2 => assembleWord .add rd rs1 rs2 0
  | .sub rd rs1 rs2 => assembleWord .sub rd rs1 rs2 0
  | .lt rs1 rs2 => assembleWord .lt 0 rs1 rs2 0
  | .mul rd rs1 rs2 => assembleWord .mul rd rs1 rs2 0
  | .div rd rs1 rs2 => assembleWord .div rd rs1 rs2 0
  | .mod rd rs1 rs2 => assembleWord .mod rd rs1 rs2 0
  | .divmod rd rd2 rs1 rs2 => assembleWord .divmod rd rs1 rs2 rd2
  | .parse rd => assembleWord .parse rd 0 0 0
  | .format rs1 => assembleWord .format 0 rs1 0 0

/-- The 64-bit value a host writes to CMD for a command: bits [63:32] are 0 (`30_encoding.md` R80). -/
def encodeCmdWrite (i : Instr) : Limb := (encode i).setWidth 64

/-- The command read from the bits of an opcode-table row: `w` is a value of `nbits` bits, written to CMD with every
higher bit 0 (`30_encoding.md` R80). -/
def decodeTableWord (nbits w : Nat) : Option Instr :=
  (decodeCmdWrite ((BitVec.ofNat nbits w).setWidth 64)).toOption

end Sys2Proof
end

