-- ==== Sys2Proof/Config.lean ====
section
/-! DEFINITION. The open parameters of `00_scope.md` R9 and the draws of
`93_implementation_defined.md` U1 to U3. None has a body: a claim holds whatever they are. -/

namespace Sys2Proof

/-- DESIGN CHOICE (log entry 8), safe. The 4096-byte page at which the platform puts the window (`00_scope.md` R9). -/
opaque Config.mmBasePage : Nat

/-- `MM_BASE`, aligned to 4096 bytes (`00_scope.md` R9). -/
def Config.mmBase : Nat := 4096 * Config.mmBasePage

/-- DESIGN CHOICE (log entry 7), safe. The cycles a command takes beyond the first, given its word, the values of its
register operands and its text operand (`00_scope.md` R9, `20_memory.md` R61). -/
opaque Config.latencyExtra : CommandWord → List Magnitude → List Byte → Nat

/-- `LATENCY(cmd, operands)`: finite and at least 1 (`00_scope.md` R9). -/
def Config.latency (cmd : CommandWord) (regs : List Magnitude) (text : List Byte) : Nat :=
  Config.latencyExtra cmd regs text + 1

/-- DESIGN CHOICE (log entry 1). What limb `j` of `Vn` holds after the `k`-th hard reset: a draw (`10_state.md` R23). -/
opaque Config.registerDraw : (k : Nat) → (n : Fin 16) → (j : Fin 4) → Limb

/-- DESIGN CHOICE (log entry 2). What byte `T[i]` holds after the `k`-th hard reset: a draw (`10_state.md` R33). -/
opaque Config.textDraw : (k : Nat) → (i : Nat) → Byte

/-- DESIGN CHOICE (log entry 3), safe. The word returned by the `k`-th host read of V, T or TLEN while BUSY: a draw
(`20_memory.md` R63). -/
opaque Config.busyReadDraw : (k : Nat) → Limb

end Sys2Proof
end

