-- ==== Sys2Proof/Machine/Limbs.lean ====
section
/-! DEFINITION. Magnitudes as four limbs, limb 0 least significant (`00_scope.md` R12), and text words as eight
bytes, little-endian (`20_memory.md` R53). -/

namespace Sys2Proof.Machine

/-- The 256-bit value of four limbs, limb 0 least significant (`00_scope.md` R12). -/
def ofLimbs (l0 l1 l2 l3 : Limb) : Magnitude := l3 ++ l2 ++ l1 ++ l0

/-- `limb_j(v) = v[64j+63 : 64j]` (`00_scope.md` R12). -/
def limb (v : Magnitude) (j : Fin 4) : Limb := v.extractLsb' (64 * j.val) 64

/-- `v` with limb `j` replaced. -/
def setLimb (v : Magnitude) (j : Fin 4) (w : Limb) : Magnitude :=
  match j with
  | 0 => ofLimbs w (limb v 1) (limb v 2) (limb v 3)
  | 1 => ofLimbs (limb v 0) w (limb v 2) (limb v 3)
  | 2 => ofLimbs (limb v 0) (limb v 1) w (limb v 3)
  | 3 => ofLimbs (limb v 0) (limb v 1) (limb v 2) w

/-- The byte at `offset 8k + i` of the aligned word at `8k`: bits `[8i+7 : 8i]` (`20_memory.md` R53). -/
def wordByte (w : Limb) (i : Nat) : Byte := w.extractLsb' (8 * i) 8

/-- The word whose byte at `8k + i` is `b i`, for `i` in 0..7 (`20_memory.md` R53). -/
def ofBytes (b0 b1 b2 b3 b4 b5 b6 b7 : Byte) : Limb := b7 ++ b6 ++ b5 ++ b4 ++ b3 ++ b2 ++ b1 ++ b0

/-- The maximum magnitude as a natural, `MAX = 2^256 − 1` (`10_state.md` R35). -/
def maxMagnitude : Nat := 2 ^ 256 - 1

end Sys2Proof.Machine
end

