-- ==== Sys2Proof/Machine/State.lean ====
section
/-! DEFINITION. The state of MM-CORE as plain data, the reasons a step can stop, and the state after reset
(`10_state.md`, `70_reset_and_hazards.md` R200). -/

namespace Sys2Proof.Machine

/-- Why the machine stops. -/
inductive Fault where
  /-- The host made an access the window does not take: a width other than 8 bytes, or an offset that is not a
  multiple of 8 (`20_memory.md` R55). Raised by the host's access, never by a command. Safe: `60_exceptions.md` R188
  calls it a fault of the host, and no later state is claimed of it (log entry 9). -/
  | busError (offset : Offset) (width : Nat)
  deriving DecidableEq, Repr

/-- Why a command has no meaning. -/
inductive Refusal where
  /-- Raised by `exec` for a command that has no meaning yet; no arm raises it. Safe. -/
  | notModelled (mnemonic : String)
  deriving DecidableEq, Repr

/-- The text buffer's listed bytes: (index in T, byte) cells. -/
abbrev Memory := List Host.Cell

/-- The canonical form: indices strictly rise and lie in 0..255 (`10_state.md` R32). An unlisted byte holds no value
(log entry 2), so no entry can equal what an unlisted index holds. -/
abbrev Memory.wf (m : Memory) : Prop :=
  m.Pairwise (fun a b => a.1 < b.1) ∧ ∀ c ∈ m, c.1 < 256

/-- The accepted command (`10_state.md` R34). -/
structure InFlight where
  /-- The accepted 32-bit command word. -/
  cur : CommandWord
  /-- Whether bits [63:32] of the accepted CMD write were not 0. -/
  illegalHi : Bool
  /-- The cycles left before completion. -/
  remaining : Nat
  deriving DecidableEq, Repr

/-- What the core's surroundings do next: a window access, the passing of one core cycle, or the hard reset input
(`00_scope.md` R18, `20_memory.md` R60, `70_reset_and_hazards.md` R200). -/
inductive HostEvent where
  /-- The host reads `width` bytes at `offset` (`30_encoding.md` R89 `R`). -/
  | read (offset : Offset) (width : Nat)
  /-- The host writes `width` bytes at `offset` (`30_encoding.md` R89 `W`). -/
  | write (offset : Offset) (width : Nat) (data : Limb)
  /-- One core cycle passes (`20_memory.md` R62). -/
  | cycle
  /-- The platform asserts and releases the hard reset (`70_reset_and_hazards.md` R200). -/
  | hardReset
  deriving DecidableEq, Repr

/-- Every piece of state of `10_state.md` R37, and the model's own four fields (`pending`, `readLog`, `resets`,
`draws`). STATUS.BUSY is `inFlight` being some command (`10_state.md` R34). -/
structure State where
  /-- V0..V15 (R20). -/
  regs : Vector Magnitude 16
  /-- The kernel flag CF (R25). -/
  cf : Bool
  /-- STATUS.FATAL (R27). -/
  fatal : Bool
  /-- STATUS.HAZ (R27). -/
  haz : Bool
  /-- STATUS.ERR (R27). -/
  err : BitVec 8
  /-- TLEN (R30). -/
  tlen : BitVec 8
  /-- The bytes of T that hold a value since the last hard reset (R32). -/
  text : Memory
  /-- BUSY, cur, illegal_hi and remaining (R34). -/
  inFlight : Option InFlight
  /-- MODEL's own: the events to come, oldest first (log entry 5). -/
  pending : List HostEvent
  /-- MODEL's own: the words returned to the host's reads, newest first (log entry 6). -/
  readLog : List Limb
  /-- MODEL's own: how many hard resets there have been (log entry 4). -/
  resets : Nat
  /-- MODEL's own: how many reads have returned a draw (log entry 3). -/
  draws : Nat
  deriving DecidableEq, Repr

/-- The registers after the `k`-th hard reset: each limb holds a draw (`10_state.md` R23). -/
def drawnRegs (k : Nat) : Vector Magnitude 16 :=
  Vector.ofFn fun n => ofLimbs (Config.registerDraw k n 0) (Config.registerDraw k n 1)
    (Config.registerDraw k n 2) (Config.registerDraw k n 3)

/-- The state after a hard reset: control state 0, V and T draws, no command in flight (`10_state.md` R37,
`70_reset_and_hazards.md` R200). -/
def State.reset : State where
  regs := drawnRegs 0
  cf := false
  fatal := false
  haz := false
  err := 0
  tlen := 0
  text := []
  inFlight := none
  pending := []
  readLog := []
  resets := 0
  draws := 0

end Sys2Proof.Machine
end

