-- ==== Sys2Proof/Machine/Ops.lean ====
section
/-! DEFINITION. The named operations over the registers, the text buffer and the control state; the three ways a
command ends (`00_scope.md` R13, `60_exceptions.md` R170 to R172), which take the place of exceptions here; and the
two resets, the only exits from the fatal state (`60_exceptions.md` R179). -/

namespace Sys2Proof.Machine

/-! ### The cells of the text buffer -/

/-- The byte listed at index `a`, if one is. -/
def Memory.lookup : Memory → Nat → Option Byte
  | [], _ => none
  | c :: m, a => if c.1 = a then some c.2 else Memory.lookup m a

/-- `m` with the byte `b` at index `a`, in its sorted place. -/
def Memory.store : Memory → Nat → Byte → Memory
  | [], a, b => [(a, b)]
  | c :: m, a, b =>
    if a < c.1 then (a, b) :: c :: m
    else if a = c.1 then (a, b) :: m
    else c :: Memory.store m a b

/-! ### Registers (`00_scope.md` R13 `V[n]`, `CF`, `T[i]`, `TLEN`) -/

/-- `V[n]`. -/
def readReg (s : State) (n : RegNum) : Magnitude := s.regs[n]

/-- `V[n] <- v`. No register is hardwired (`10_state.md` R20). -/
def writeReg (n : RegNum) (v : Magnitude) (s : State) : State := { s with regs := s.regs.set n v }

/-- `CF <- b`. -/
def writeCf (b : Bool) (s : State) : State := { s with cf := b }

/-- `TLEN <- k`. -/
def writeTlen (k : BitVec 8) (s : State) : State := { s with tlen := k }

/-- What an unlisted byte of T reads as: the draw of the last hard reset (`10_state.md` R33, log entry 2). -/
def unlistedByte (s : State) (i : Nat) : Byte := Config.textDraw s.resets i

/-- `T[i]`. -/
def readText (s : State) (i : Nat) : Byte := (s.text.lookup i).getD (unlistedByte s i)

/-- `T[i] <- c`, for `i` in 0..255; there is no other byte (`10_state.md` R32). -/
def writeText (i : Nat) (c : Byte) (s : State) : State :=
  if i < 256 then { s with text := s.text.store i c } else s

/-- `T[i], T[i+1], … <- cs`. -/
def writeTexts : Nat → List Byte → State → State
  | _, [], s => s
  | i, c :: cs, s => writeTexts (i + 1) cs (writeText i c s)

/-- STATUS.BUSY: a command is in flight (`10_state.md` R27, R34). -/
def State.busy (s : State) : Bool := s.inFlight.isSome

/-! ### How a command ends -/

/-- The outcomes a command can have (`60_exceptions.md` R170). -/
inductive ErrorName where
  /-- Successful completion. -/
  | noError
  /-- More than 78 digits after stripping, or a value above 2^256 − 1. -/
  | range
  /-- `TLEN = 0`. -/
  | emptyInput
  /-- A non-digit, or a lone `'+'`. -/
  | badSyntax
  /-- The divisor of a DIV or DIVMOD is 0. -/
  | divisionByZero
  /-- The accepted word is illegal. -/
  | illegalCommand
  deriving DecidableEq, Repr

/-- Column `code` of the table of error codes (`60_exceptions.md` R170). -/
def ErrorName.code : ErrorName → BitVec 8
  | .noError => 0
  | .range => 1
  | .emptyInput => 2
  | .badSyntax => 3
  | .divisionByZero => 4
  | .illegalCommand => 5

/-- `complete`: the command ends with `STATUS.ERR <- 0` (`00_scope.md` R13) and BUSY 0 (`20_memory.md` R62). -/
def complete (s : State) : State := { s with err := ErrorName.noError.code, inFlight := none }

/-- `raise Recoverable(code)`: the command ends with `STATUS.ERR <- code` (`00_scope.md` R13, `60_exceptions.md` R171). -/
def raiseRecoverable (e : ErrorName) (s : State) : State := { s with err := e.code, inFlight := none }

/-- `raise Fatal(code)`: the command ends with `STATUS.ERR <- code` and `STATUS.FATAL <- 1` (`00_scope.md` R13,
`60_exceptions.md` R172). -/
def raiseFatal (e : ErrorName) (s : State) : State := { s with err := e.code, fatal := true, inFlight := none }

/-- The core drops a host write: HAZ becomes 1, nothing else changes (`70_reset_and_hazards.md` R210). -/
def dropWrite (s : State) : State := { s with haz := true }

/-! ### Resets -/

/-- Soft reset: the in-flight command is abandoned, control state is 0, V and T stay (`70_reset_and_hazards.md` R201). -/
def softReset (s : State) : State :=
  { s with inFlight := none, fatal := false, haz := false, err := 0, cf := false, tlen := 0 }

/-- `CTRL.CLRHAZ` (`10_state.md` R28). -/
def clearHaz (s : State) : State := { s with haz := false }

/-- Hard reset: the state of `10_state.md` R37, with V and T drawn afresh (`70_reset_and_hazards.md` R200, log entry
4). The events to come and the words already returned are not the core's state. -/
def hardReset (s : State) : State :=
  { State.reset with
    regs := drawnRegs (s.resets + 1), resets := s.resets + 1, draws := s.draws, pending := s.pending,
    readLog := s.readLog }

end Sys2Proof.Machine
end

