-- ==== Sys2Proof/Machine/Operands.lean ====
section
/-! DEFINITION. The operand forms of MM-CORE: a register as a source, a register as a destination, and the text
buffer as a source and as a destination (`10_state.md` R22, `30_encoding.md` R81). -/

namespace Sys2Proof.Machine

/-- The text operand of PARSE, `T[0..TLEN−1]` (`42_codec.md` R141). -/
def textOperand (s : State) : List Byte := (List.range s.tlen.toNat).map (readText s)

/-- The text destination of FORMAT: `T[0..n−1]` and `TLEN <- n` (`42_codec.md` R152). -/
def writeTextOperand (t : List Byte) (s : State) : State :=
  writeTlen (BitVec.ofNat 8 t.length) (writeTexts 0 t s)

/-- The register numbers a command reads (`10_state.md` R22). -/
def sources : Instr → List RegNum
  | .add _ rs1 rs2 => [rs1, rs2]
  | .sub _ rs1 rs2 => [rs1, rs2]
  | .lt rs1 rs2 => [rs1, rs2]
  | .mul _ rs1 rs2 => [rs1, rs2]
  | .div _ rs1 rs2 => [rs1, rs2]
  | .mod _ rs1 rs2 => [rs1, rs2]
  | .divmod _ _ rs1 rs2 => [rs1, rs2]
  | .parse _ => []
  | .format rs1 => [rs1]

/-- The register numbers a command may write (`10_state.md` R22). -/
def destinations : Instr → List RegNum
  | .add rd _ _ => [rd]
  | .sub rd _ _ => [rd]
  | .lt _ _ => []
  | .mul rd _ _ => [rd]
  | .div rd _ _ => [rd]
  | .mod rd _ _ => [rd]
  | .divmod rd rd2 _ _ => [rd, rd2]
  | .parse rd => [rd]
  | .format _ => []

/-- The text a command reads (`10_state.md` R22). -/
def sourceText : Instr → State → List Byte
  | .add _ _ _, _ => []
  | .sub _ _ _, _ => []
  | .lt _ _, _ => []
  | .mul _ _ _, _ => []
  | .div _ _ _, _ => []
  | .mod _ _ _, _ => []
  | .divmod _ _ _ _, _ => []
  | .parse _, s => textOperand s
  | .format _, _ => []

/-- `LATENCY(cur, operands)`: a word that is no command has no operands (`20_memory.md` R61, log entry 7). -/
def latencyOf (cur : CommandWord) (s : State) : Nat :=
  match decode cur with
  | .ok i => Config.latency cur ((sources i).map (readReg s)) (sourceText i s)
  | .error _ => Config.latency cur [] []

end Sys2Proof.Machine
end

