-- ==== Sys2Proof/Machine/Codec.lean ====
section
/-! DEFINITION. The decimal codec: PARSE and FORMAT (`42_codec.md`). Neither writes CF (R141, R152). -/

namespace Sys2Proof.Machine

/-- `'0'` is 0x30. PRESUMED (ASCII, `93_implementation_defined.md` GK1, log entry 13). -/
def charZero : Byte := 0x30

/-- `'+'` is 0x2B. PRESUMED (ASCII, `93_implementation_defined.md` GK1, log entry 13). -/
def charPlus : Byte := 0x2B

/-- A digit is a byte in `'0'..'9'` (`42_codec.md` R140). -/
def isDigit (c : Byte) : Bool := decide (0x30 ≤ c.toNat) && decide (c.toNat ≤ 0x39)

/-- The value of a digit: the byte minus 0x30 (`42_codec.md` R140). -/
def digitValue (c : Byte) : Nat := c.toNat - 0x30

/-- The digit of value `d` (`42_codec.md` R140). -/
def digitByte (d : Nat) : Byte := BitVec.ofNat 8 (0x30 + d)

/-- `Σ digit(s[i]) · 10^(len(s)−1−i)`; 0 for the empty string (`42_codec.md` R141). -/
def decimalValue (s : List Byte) : Nat := s.foldl (fun acc c => 10 * acc + digitValue c) 0

/-- `s` without one leading `'+'` (`42_codec.md` R141: at most one is stripped). -/
def stripPlus : List Byte → List Byte
  | [] => []
  | c :: s => if c = charPlus then s else c :: s

/-- `s` with every leading `'0'` removed (`42_codec.md` R141). -/
def stripZeros (s : List Byte) : List Byte := s.dropWhile (fun c => c == charZero)

/-- The number of decimal digits of `2^256 − 1` (`00_scope.md` R8 `MAXDIG`). -/
def maxDigits : Nat := 78

/-- The outcome of PARSE on a text, its tests in the order of `42_codec.md` R141 (R142, `60_exceptions.md` R176). -/
def parseText (text : List Byte) : Except ErrorName Magnitude :=
  if text = [] then .error .emptyInput
  else if stripPlus text = [] then .error .badSyntax
  else
    let s := stripZeros (stripPlus text)
    if maxDigits < s.length then .error .range
    else if s.any (fun c => !isDigit c) then .error .badSyntax
    else if maxMagnitude < decimalValue s then .error .range
    else .ok (BitVec.ofNat 256 (decimalValue s))

/-- PARSE: on every error the destination becomes 0 (`42_codec.md` R141). -/
def execParse (rd : RegNum) (s : State) : Host.Outcome State Fault Refusal :=
  .next (match parseText (textOperand s) with
    | .ok v => complete (writeReg rd v s)
    | .error e => raiseRecoverable e (writeReg rd 0 s))

/-- The decimal digits of `v`, least significant first, at most `fuel` of them and at least one if `fuel` is not 0. -/
def decimalDigits : (fuel : Nat) → (v : Nat) → List Byte
  | 0, _ => []
  | fuel + 1, v => if v < 10 then [digitByte v] else digitByte (v % 10) :: decimalDigits fuel (v / 10)

/-- The decimal digits of a natural below `10^78`, most significant first, with no leading zero; `"0"` for 0. -/
def decimalText (v : Nat) : List Byte := (decimalDigits maxDigits v).reverse

/-- `dec(v)`, the canonical decimal text of a magnitude (`42_codec.md` R150). -/
def dec (v : Magnitude) : List Byte := decimalText v.toNat

/-- FORMAT (`42_codec.md` R152). -/
def execFormat (rs1 : RegNum) (s : State) : Host.Outcome State Fault Refusal :=
  .next (complete (writeTextOperand (dec (readReg s rs1)) s))

end Sys2Proof.Machine
end

