-- ==== Sys2Proof/Machine/Division.lean ====
section
/-! DEFINITION. The division engine: DIV, MOD, DIVMOD (`41_division.md`). No division command writes CF (R131). -/

namespace Sys2Proof.Machine

/-- `floor(x / y)` for `y ≠ 0` (`41_division.md` R120). -/
def quotientOf (x y : Magnitude) : Magnitude := BitVec.ofNat 256 (x.toNat / y.toNat)

/-- `x mod y` for `y ≠ 0` (`41_division.md` R120). -/
def remainderOf (x y : Magnitude) : Magnitude := BitVec.ofNat 256 (x.toNat % y.toNat)

/-- DIV: a zero divisor is fatal (`41_division.md` R121). -/
def execDiv (rd rs1 rs2 : RegNum) (s : State) : Host.Outcome State Fault Refusal :=
  let x := readReg s rs1
  let y := readReg s rs2
  .next (if y = 0 then raiseFatal .divisionByZero s else complete (writeReg rd (quotientOf x y) s))

/-- MOD: a zero divisor gives zero, with no error (`41_division.md` R122, `90_conflicts.md` C1). -/
def execMod (rd rs1 rs2 : RegNum) (s : State) : Host.Outcome State Fault Refusal :=
  let x := readReg s rs1
  let y := readReg s rs2
  .next (complete (writeReg rd (if y = 0 then 0 else remainderOf x y) s))

/-- DIVMOD: one register as both destinations is an illegal command (`30_encoding.md` R84, R86 c), checked before the
divisor (`60_exceptions.md` R176); a zero divisor is fatal (`41_division.md` R123). -/
def execDivmod (rd rd2 rs1 rs2 : RegNum) (s : State) : Host.Outcome State Fault Refusal :=
  let x := readReg s rs1
  let y := readReg s rs2
  .next (if rd = rd2 then raiseRecoverable .illegalCommand s
    else if y = 0 then raiseFatal .divisionByZero s
    else complete (writeReg rd2 (remainderOf x y) (writeReg rd (quotientOf x y) s)))

end Sys2Proof.Machine
end

