-- ==== Sys2Proof/Machine/Flags.lean ====
section
/-! DEFINITION. The flag outputs of the kernel commands (`10_state.md` R25), computed on exact naturals. -/

namespace Sys2Proof.Machine

/-- The carry out of limb 3 of `x + y` (`40_kernel.md` R101). -/
def carryOut (x y : Magnitude) : Bool := decide (2 ^ 256 ≤ x.toNat + y.toNat)

/-- The borrow of `x − y`, which is also the comparison `x < y` (`40_kernel.md` R104, R107). -/
def borrowOut (x y : Magnitude) : Bool := decide (x.toNat < y.toNat)

/-- Whether any of the high 256 bits of `x · y` is nonzero (`40_kernel.md` R110). -/
def mulOverflow (x y : Magnitude) : Bool := decide (x.toNat * y.toNat / 2 ^ 256 ≠ 0)

end Sys2Proof.Machine
end

