-- ==== Sys2Proof/Machine/Kernel.lean ====
section
/-! DEFINITION. The unsigned kernel: ADD, SUB, LT, MUL (`40_kernel.md`). Overflow and borrow are results in CF, never
errors (R100, R113). -/

namespace Sys2Proof.Machine

/-- `(x + y) mod 2^256` (`40_kernel.md` R101). -/
def sumOf (x y : Magnitude) : Magnitude := BitVec.ofNat 256 (x.toNat + y.toNat)

/-- `(x − y) mod 2^256` (`40_kernel.md` R104). -/
def differenceOf (x y : Magnitude) : Magnitude := BitVec.ofInt 256 (Int.ofNat x.toNat - Int.ofNat y.toNat)

/-- `(x · y) mod 2^256` (`40_kernel.md` R110). -/
def productOf (x y : Magnitude) : Magnitude := BitVec.ofNat 256 (x.toNat * y.toNat)

/-- ADD (`40_kernel.md` R101). -/
def execAdd (rd rs1 rs2 : RegNum) (s : State) : Host.Outcome State Fault Refusal :=
  let x := readReg s rs1
  let y := readReg s rs2
  .next (complete (writeCf (carryOut x y) (writeReg rd (sumOf x y) s)))

/-- SUB (`40_kernel.md` R104). -/
def execSub (rd rs1 rs2 : RegNum) (s : State) : Host.Outcome State Fault Refusal :=
  let x := readReg s rs1
  let y := readReg s rs2
  .next (complete (writeCf (borrowOut x y) (writeReg rd (differenceOf x y) s)))

/-- LT writes no register (`40_kernel.md` R107). -/
def execLt (rs1 rs2 : RegNum) (s : State) : Host.Outcome State Fault Refusal :=
  .next (complete (writeCf (borrowOut (readReg s rs1) (readReg s rs2)) s))

/-- MUL (`40_kernel.md` R110). -/
def execMul (rd rs1 rs2 : RegNum) (s : State) : Host.Outcome State Fault Refusal :=
  let x := readReg s rs1
  let y := readReg s rs2
  .next (complete (writeCf (mulOverflow x y) (writeReg rd (productOf x y) s)))

end Sys2Proof.Machine
end

