-- ==== Sys2Proof/Machine/Window.lean ====
section
/-! DEFINITION. The host window: its map, what a read returns and what a write does (`20_memory.md`,
`10_state.md` R26 to R32). -/

namespace Sys2Proof.Machine

/-- What stands at an offset of the window (`20_memory.md` R51). -/
inductive WindowReg where
  | id
  | status
  | ctrl
  | cmd
  | tlen
  /-- The word at `0x100 + 8k`, bytes `T[8k..8k+7]` (`10_state.md` R32). -/
  | text (k : Fin 32)
  /-- Limb `j` of `Vn`, at `0x200 + 0x20·n + 0x8·j` (`10_state.md` R21). -/
  | limb (n : Fin 16) (j : Fin 4)
  /-- Read as zero, writes ignored (`20_memory.md` R52). -/
  | reserved
  deriving DecidableEq, Repr

/-- The word number of an offset: its bits [11:3] (`20_memory.md` R51). -/
def wordIndex (off : Offset) : Nat := (off.extractLsb' 3 9).toNat

/-- The address map by word number (`20_memory.md` R51). -/
def windowReg (off : Offset) : WindowReg :=
  let k := wordIndex off
  if k = 0 then .id
  else if k = 1 then .status
  else if k = 2 then .ctrl
  else if k = 3 then .cmd
  else if k = 4 then .tlen
  else if k < 32 then .reserved
  else if k < 64 then .text (Fin.ofNat 32 (k - 32))
  else if k < 128 then .limb (Fin.ofNat 16 ((k - 64) / 4)) (Fin.ofNat 4 ((k - 64) % 4))
  else .reserved

/-- The offset of limb `j` of `Vn` (`10_state.md` R21). -/
def limbOffset (n : Fin 16) (j : Fin 4) : Offset := BitVec.ofNat 12 (0x200 + 0x20 * n.val + 0x8 * j.val)

/-- The offset of the word of `T[8k..8k+7]` (`10_state.md` R32). -/
def textOffset (k : Fin 32) : Offset := BitVec.ofNat 12 (0x100 + 8 * k.val)

/-- The words whose host writes are dropped, and whose host reads are draws, while BUSY (`20_memory.md` R63). A CMD
write while BUSY is dropped too, by R61. -/
def WindowReg.guarded : WindowReg → Bool
  | .id => false
  | .status => false
  | .ctrl => false
  | .cmd => false
  | .tlen => true
  | .text _ => true
  | .limb _ _ => true
  | .reserved => false

/-- The ID register (`10_state.md` R26, R31): VERSION 0x0001 in [15:0], PART 0x4D4D in [31:16], the rest 0. -/
def idValue : Limb := 0x000000004D4D0001

/-- The STATUS register (`10_state.md` R27): BUSY in bit 0, CF in bit 1, FATAL in bit 2, HAZ in bit 3, ERR in [15:8],
every other bit 0. -/
def statusWord (s : State) : Limb :=
  0#48 ++ s.err ++ 0#4 ++ BitVec.ofBool s.haz ++ BitVec.ofBool s.fatal ++ BitVec.ofBool s.cf ++ BitVec.ofBool s.busy

/-- The word `T[8k..8k+7]`, little-endian (`10_state.md` R32, `20_memory.md` R53). -/
def readTextWord (s : State) (k : Fin 32) : Limb :=
  let b := fun i => readText s (8 * k.val + i)
  ofBytes (b 0) (b 1) (b 2) (b 3) (b 4) (b 5) (b 6) (b 7)

/-- A host write of the word `T[8k..8k+7]`. -/
def writeTextWord (k : Fin 32) (w : Limb) (s : State) : State :=
  writeTexts (8 * k.val) ((List.range 8).map (wordByte w)) s

/-- A host write of limb `j` of `Vn` (`10_state.md` R21). -/
def writeLimb (n : Fin 16) (j : Fin 4) (w : Limb) (s : State) : State :=
  writeReg n (setLimb (readReg s n) j w) s

/-- The word at a place of the window, while the core is idle or the place is not guarded (`20_memory.md` R51, R52). -/
def windowValue (s : State) : WindowReg → Limb
  | .id => idValue
  | .status => statusWord s
  | .ctrl => 0
  | .cmd => 0
  | .tlen => s.tlen.setWidth 64
  | .text k => readTextWord s k
  | .limb n j => limb (readReg s n) j
  | .reserved => 0

/-- The window returns the word `w` to the host. -/
def returnWord (w : Limb) (s : State) : State := { s with readLog := w :: s.readLog }

/-- The window returns a draw to the host; the next draw is a new one (`20_memory.md` R63, log entry 3). -/
def returnDraw (s : State) : State :=
  { s with readLog := Config.busyReadDraw s.draws :: s.readLog, draws := s.draws + 1 }

/-- An aligned 64-bit host read (`30_encoding.md` R89). It changes nothing but what the host has read
(`20_memory.md` R57). -/
def hostRead (off : Offset) (s : State) : State :=
  let r := windowReg off
  if s.busy && r.guarded then returnDraw s else returnWord (windowValue s r) s

/-- A host write to CTRL acts at once, even while BUSY or FATAL; SRST comes before CLRHAZ (`10_state.md` R28). -/
def writeCtrl (w : Limb) (s : State) : State :=
  if w.getLsbD 0 then softReset s else if w.getLsbD 1 then clearHaz s else s

/-- The core takes the command word `w[31:0]`: BUSY in the same step, and the countdown set (`20_memory.md` R61). -/
def acceptCommand (w : Limb) (s : State) : State :=
  let cur := w.extractLsb' 0 32
  { s with inFlight := some { cur, illegalHi := w.extractLsb' 32 32 != 0, remaining := latencyOf cur s } }

/-- A host write to CMD: dropped while BUSY or FATAL, otherwise accepted (`20_memory.md` R61). -/
def writeCmd (w : Limb) (s : State) : State :=
  if s.busy || s.fatal then dropWrite s else acceptCommand w s

/-- A host write that the core drops while BUSY (`20_memory.md` R63). -/
def whenIdle (f : State → State) (s : State) : State := if s.busy then dropWrite s else f s

/-- An aligned 64-bit host write (`30_encoding.md` R89, `20_memory.md` R57, R63). -/
def hostWrite (off : Offset) (w : Limb) (s : State) : State :=
  match windowReg off with
  | .id => s
  | .status => s
  | .ctrl => writeCtrl w s
  | .cmd => writeCmd w s
  | .tlen => whenIdle (writeTlen (w.setWidth 8)) s
  | .text k => whenIdle (writeTextWord k w) s
  | .limb n j => whenIdle (writeLimb n j w) s
  | .reserved => s

/-- Whether the window takes an access: 8 bytes at a multiple of 8 (`20_memory.md` R55). -/
def accessOk (off : Offset) (width : Nat) : Bool := width == 8 && off.extractLsb' 0 3 == 0

/-- The window offset of a physical address, if the address lies in the window (`20_memory.md` R50). -/
def windowOffset (address : Nat) : Option Offset :=
  if Config.mmBase ≤ address ∧ address < Config.mmBase + 4096 then some (BitVec.ofNat 12 (address - Config.mmBase))
  else none

end Sys2Proof.Machine
end

