-- ==== Sys2Proof/Machine/Engine.lean ====
section
/-! DEFINITION. The core's own step (`20_memory.md` R62) and one event of the machine (`20_memory.md` R60). -/

namespace Sys2Proof.Machine

/-- The command in flight completes: an illegal word ends with ILLEGAL_COMMAND, any other by its rule
(`30_encoding.md` R86). -/
def completeCommand (c : InFlight) (s : State) : Host.Outcome State Fault Refusal :=
  if c.illegalHi then .next (raiseRecoverable .illegalCommand s)
  else match decode c.cur with
    | .error _ => .next (raiseRecoverable .illegalCommand s)
    | .ok i => exec i s

/-- One core cycle: an idle core stays as it is (`60_exceptions.md` R187), a busy one counts down, and completes in the
cycle in which the count reaches 0 (`20_memory.md` R62, log entry 15). -/
def coreCycle (s : State) : Host.Outcome State Fault Refusal :=
  match s.inFlight with
  | none => .next s
  | some c =>
    if c.remaining ≤ 1 then completeCommand c s
    else .next { s with inFlight := some { c with remaining := c.remaining - 1 } }

/-- One event: a window access, which is a fault of the host unless it is an aligned 64-bit one (`20_memory.md` R55,
`60_exceptions.md` R188); a core cycle; or the hard reset. -/
def event (e : HostEvent) (s : State) : Host.Outcome State Fault Refusal :=
  match e with
  | .read off width => if accessOk off width then .next (hostRead off s) else .fault (.busError off width)
  | .write off width w => if accessOk off width then .next (hostWrite off w s) else .fault (.busError off width)
  | .cycle => coreCycle s
  | .hardReset => .next (hardReset s)

/-- The next event to come, in the one order of `20_memory.md` R60; with none to come, a core cycle passes
(log entry 5). -/
def nextEvent (s : State) : Host.Outcome State Fault Refusal :=
  match s.pending with
  | [] => coreCycle s
  | e :: rest => event e { s with pending := rest }

/-- `s` with the command of the 64-bit CMD value `w` accepted, its last cycle the next event (log entry 11). -/
def withCommandDue (w : Limb) (s : State) : State :=
  { s with
    inFlight := some { cur := w.extractLsb' 0 32, illegalHi := w.extractLsb' 32 32 != 0, remaining := 1 },
    pending := .cycle :: s.pending }

end Sys2Proof.Machine
end

