-- ==== Sys2Proof/Machine/Step.lean ====
section
/-! DEFINITION. One step of the machine, and the placing of a command where the next step runs it. -/

namespace Sys2Proof.Machine

/-- One step: the next event of the machine takes effect (`20_memory.md` R60). -/
def step (s : State) : Host.Outcome State Fault Refusal := nextEvent s

/-- `s` with the command word `w` of `nbits` bits (higher bits 0) in flight, so that the very next step completes it
(log entry 11). -/
def State.withFetchWord (s : State) (nbits w : Nat) : State :=
  withCommandDue ((BitVec.ofNat nbits w).setWidth 64) s

end Sys2Proof.Machine
end

