-- ==== Sys2Proof/Machine/Datapath.lean ====
section
/-! DEFINITION. The reference datapaths (`40_kernel.md` R102, R105, R108, R111; `41_division.md` R125 to R130;
`42_codec.md` R143, R151) and the constants of `10_state.md` R35. No meaning of a command rests on them: only results
are binding (R125, `92_eei_decisions.md` D31). Limbs are naturals below `2^64`, least significant first. -/

namespace Sys2Proof.Machine

/-! ### Constants (`10_state.md` R35, limbs as its table gives them) -/

/-- `P19 = 10^19`. -/
def p19 : Magnitude := ofLimbs 0x8AC7230489E80000 0 0 0
/-- `P38 = 10^38`. -/
def p38 : Magnitude := ofLimbs 0x098A224000000000 0x4B3B4CA85A86C47A 0 0
/-- `P57 = 10^57`. -/
def p57 : Magnitude := ofLimbs 0x4A00000000000000 0xEBFDCB54864ADA83 0x28C87CB5C89A2571 0
/-- `P76 = 10^76`. -/
def p76 : Magnitude := ofLimbs 0 0x7775A5F171951000 0x0764B4ABE8652979 0x161BCCA7119915B5
/-- `MAX = 2^256 − 1`. -/
def maxValue : Magnitude :=
  ofLimbs 0xFFFFFFFFFFFFFFFF 0xFFFFFFFFFFFFFFFF 0xFFFFFFFFFFFFFFFF 0xFFFFFFFFFFFFFFFF

/-! ### Limb lists -/

/-- The four limbs of a magnitude. -/
def limbList (v : Magnitude) : List Nat := [(limb v 0).toNat, (limb v 1).toNat, (limb v 2).toNat, (limb v 3).toNat]

/-- The value of a limb list, `Σ_j l_j · 2^(64j)`. -/
def limbListValue : List Nat → Nat
  | [] => 0
  | l :: ls => l + 2 ^ 64 * limbListValue ls

/-- Limb `k` of a natural. -/
def limbAt (u k : Nat) : Nat := u / 2 ^ (64 * k) % 2 ^ 64

/-! ### Kernel -/

/-- The carry chain of ADD from carry `c`: the sum's limbs and the last carry (`40_kernel.md` R102). -/
def addChain : (c : Nat) → List Nat → List Nat → List Nat × Nat
  | c, x :: xs, y :: ys =>
    let t := x + y + c
    let r := addChain (t / 2 ^ 64) xs ys
    (t % 2 ^ 64 :: r.1, r.2)
  | c, _, _ => ([], c)

/-- The reference datapath of ADD: sum and overflow (`40_kernel.md` R102). -/
def refAdd (x y : Magnitude) : Magnitude × Bool :=
  let r := addChain 0 (limbList x) (limbList y)
  (BitVec.ofNat 256 (limbListValue r.1), decide (r.2 ≠ 0))

/-- The borrow chain of SUB from borrow `b`: the difference's limbs and the last borrow (`40_kernel.md` R105). -/
def subChain : (b : Nat) → List Nat → List Nat → List Nat × Nat
  | b, x :: xs, y :: ys =>
    let t : Int := (x : Int) - y - b
    let r := subChain (if t < 0 then 1 else 0) xs ys
    ((t % 2 ^ 64).toNat :: r.1, r.2)
  | b, _, _ => ([], b)

/-- The reference datapath of SUB: difference and borrow (`40_kernel.md` R105). -/
def refSub (x y : Magnitude) : Magnitude × Bool :=
  let r := subChain 0 (limbList x) (limbList y)
  (BitVec.ofNat 256 (limbListValue r.1), decide (r.2 ≠ 0))

/-- The reference datapath of LT: the borrow chain with its difference discarded (`40_kernel.md` R108). -/
def refLt (x y : Magnitude) : Bool := (refSub x y).2

/-- One row of the schoolbook product: `x` times `ys`, added to the columns `acc` with carry `c`; the new columns and
the carry out (`40_kernel.md` R111, inner loop). -/
def mulRow (x : Nat) : (ys acc : List Nat) → (c : Nat) → List Nat × Nat
  | y :: ys, a :: acc, c =>
    let t := x * y + a + c
    let r := mulRow x ys acc (t / 2 ^ 64)
    (t % 2 ^ 64 :: r.1, r.2)
  | _, _, c => ([], c)

/-- The columns of `xs · ys + acc`, where `acc` is the window `acc[i..i+3]`: a row fixes column `i` and its carry
becomes column `i+4` (`40_kernel.md` R111, outer loop). -/
def mulColumns (ys : List Nat) : (xs acc : List Nat) → List Nat
  | [], acc => acc
  | x :: xs, acc =>
    let r := mulRow x ys acc 0
    match r.1 with
    | [] => []
    | d :: rest => d :: mulColumns ys xs (rest ++ [r.2])

/-- The reference datapath of MUL: low 256 bits and overflow (`40_kernel.md` R111). -/
def refMul (x y : Magnitude) : Magnitude × Bool :=
  let acc := mulColumns (limbList y) (limbList x) [0, 0, 0, 0]
  (BitVec.ofNat 256 (limbListValue (acc.take 4)), (acc.drop 4).any (fun l => l != 0))

/-! ### Division -/

/-- The reciprocal of a normalised limb (`41_division.md` R126). PRESUMED (GK2, log entry 14). -/
def reciprocal (d : Nat) : Nat := (2 ^ 128 - 1) / d - 2 ^ 64

/-- The 2-by-1 division by reciprocal, for `u1 < d` (`41_division.md` R126 `div21`). PRESUMED (GK2, log entry 14). -/
def div21 (u1 u0 d v : Nat) : Nat × Nat :=
  let sum := (v * u1 + (u1 * 2 ^ 64 + u0)) % 2 ^ 128
  let q1 := (sum / 2 ^ 64 + 1) % 2 ^ 64
  let q0 := sum % 2 ^ 64
  let r := (((u0 : Int) - (q1 : Int) * d) % 2 ^ 64).toNat
  let qr := if q0 < r then ((q1 + (2 ^ 64 - 1)) % 2 ^ 64, (r + d) % 2 ^ 64) else (q1, r)
  if d ≤ qr.2 then (qr.1 + 1, qr.2 - d) else qr

/-- The single-limb fast path, for `0 < y < 2^64`: quotient and remainder (`41_division.md` R126). -/
def refDivSmall (x y : Nat) : Nat × Nat :=
  let s := 63 - Nat.log2 y
  let d := y * 2 ^ s
  let v := reciprocal d
  let u := x * 2 ^ s
  let digits := [limbAt u 4, limbAt u 3, limbAt u 2, limbAt u 1, limbAt u 0]
  let qr := digits.foldl (fun (a : Nat × Nat) ui =>
    let z := div21 a.2 ui d v
    (a.1 * 2 ^ 64 + z.1, z.2)) (0, 0)
  (qr.1, qr.2 / 2 ^ s)

/-- The downward correction of a quotient digit, at most `fuel` times, by the divisor's top limb `v1` and second limb
`v2` and the next dividend limb `u0` (`41_division.md` R128). PRESUMED (GK3, log entry 14). -/
def correctDigit : (fuel : Nat) → (v1 v2 u0 qhat rhat : Nat) → Nat
  | 0, _, _, _, qhat, _ => qhat
  | fuel + 1, v1, v2, u0, qhat, rhat =>
    if rhat < 2 ^ 64 ∧ rhat * 2 ^ 64 + u0 < qhat * v2 then correctDigit fuel v1 v2 u0 (qhat - 1) (rhat + v1)
    else qhat

/-- The estimate of quotient digit `j` for the divisor `v` of `n` limbs: 2-by-1 division by the top limb, clamp, at most
two corrections (`41_division.md` R128). PRESUMED (GK3, log entry 14). -/
def estimateDigit (n v u j : Nat) : Nat :=
  let v1 := limbAt v (n - 1)
  let num := limbAt u (j + n) * 2 ^ 64 + limbAt u (j + n - 1)
  let qhat := if 2 ^ 64 ≤ num / v1 then 2 ^ 64 - 1 else num / v1
  correctDigit 2 v1 (limbAt v (n - 2)) (limbAt u (j + n - 2)) qhat (num - qhat * v1)

/-- Digit `j` of the quotient and the working remainder after it: multiply, subtract, and add back once if the
subtraction underflowed (`41_division.md` R129). -/
def quotientDigit (n v u j : Nat) : Nat × Nat :=
  let qhat := estimateDigit n v u j
  let win := u / 2 ^ (64 * j) % 2 ^ (64 * (n + 1))
  let qt := if win < qhat * v then (qhat - 1, win + v - qhat * v) else (qhat, win - qhat * v)
  (qt.1, u - win * 2 ^ (64 * j) + qt.2 * 2 ^ (64 * j))

/-- Algorithm D, for `2^64 ≤ y`: normalise, quotient digits `4 − n` down to 0, and the remainder shifted back
(`41_division.md` R127 to R130). -/
def refAlgorithmD (x y : Nat) : Nat × Nat :=
  let n := Nat.log2 y / 64 + 1
  let s := 63 - Nat.log2 (limbAt y (n - 1))
  let v := y * 2 ^ s
  let qu := (List.range (5 - n)).reverse.foldl (fun (a : Nat × Nat) j =>
    let z := quotientDigit n v a.2 j
    (a.1 + z.1 * 2 ^ (64 * j), z.2)) (0, x * 2 ^ s)
  (qu.1, qu.2 / 2 ^ s)

/-- The division engine's choice of path, for `y ≠ 0` (`41_division.md` R125): quotient and remainder. -/
def refDivide (x y : Nat) : Nat × Nat :=
  if x < y then (0, x) else if y < 2 ^ 64 then refDivSmall x y else refAlgorithmD x y

/-! ### Codec -/

/-- The decimal chunk size (`00_scope.md` R8 `CHUNK`). -/
def chunkSize : Nat := 19

/-- The matching powers of ten, `P_0 = 1` to `P_4 = P76` (`42_codec.md` R143). -/
def chunkPower : Nat → Magnitude
  | 0 => 1
  | 1 => p19
  | 2 => p38
  | 3 => p57
  | _ => p76

/-- Chunk `i` of a digit string, counted from the right (`42_codec.md` R143). -/
def chunk (s : List Byte) (i : Nat) : List Byte :=
  (s.take (s.length - chunkSize * i)).drop (s.length - chunkSize * (i + 1))

/-- The reference datapath of PARSE on a stripped digit string: the value, and whether any internal multiply or add
overflowed (`42_codec.md` R143, R144). -/
def refParseDigits (s : List Byte) : Magnitude × Bool :=
  (List.range ((s.length + (chunkSize - 1)) / chunkSize)).reverse.foldl (fun (a : Magnitude × Bool) i =>
    let c := BitVec.ofNat 256 (decimalValue (chunk s i))
    let prod := productOf c (chunkPower i)
    (sumOf a.1 prod, a.2 || mulOverflow c (chunkPower i) || carryOut a.1 prod)) (0, false)

/-- The remainders of repeated division by `10^19`, least significant first; the loop tests after each division
(`42_codec.md` R151). -/
def formatChunks : (fuel : Nat) → (w : Nat) → List Nat
  | 0, _ => []
  | fuel + 1, w => if w / 10 ^ 19 = 0 then [w % 10 ^ 19] else w % 10 ^ 19 :: formatChunks fuel (w / 10 ^ 19)

/-- A chunk's text left-padded with `'0'` to 19 digits (`42_codec.md` R151). -/
def paddedChunk (c : Nat) : List Byte :=
  List.replicate (chunkSize - (decimalText c).length) charZero ++ decimalText c

/-- The reference datapath of FORMAT: at most 5 divisions; only the most significant chunk is not padded
(`42_codec.md` R151). -/
def refFormat (v : Magnitude) : List Byte :=
  match (formatChunks 5 v.toNat).reverse with
  | [] => []
  | top :: rest => decimalText top ++ rest.flatMap paddedChunk

end Sys2Proof.Machine
end

