-- ==== Sys2Proof/Machine/Macros.lean ====
section
/-! DEFINITION. The host's notation and macros as lists of window accesses (`30_encoding.md` R89, R90). They belong to
the host, not to MM-CORE: the step does not use them. A loop of the host stands unrolled (log entry 19). -/

namespace Sys2Proof.Machine

/-- `W off, v` (`30_encoding.md` R89). -/
def hostW (off : Offset) (v : Limb) : HostEvent := .write off 8 v

/-- `R off -> x` (`30_encoding.md` R89). -/
def hostR (off : Offset) : HostEvent := .read off 8

/-- `WAIT`, unrolled: one STATUS read for each entry of `gaps`, after that many core cycles (`30_encoding.md` R90). -/
def macroWait (gaps : List Nat) : List HostEvent :=
  gaps.flatMap fun g => List.replicate g .cycle ++ [hostR 0x008]

/-- `ISSUE <command>` (`30_encoding.md` R90). -/
def macroIssue (i : Instr) (gaps : List Nat) : List HostEvent := hostW 0x018 (encodeCmdWrite i) :: macroWait gaps

/-- `LDV Vn, v` (`30_encoding.md` R90). -/
def macroLdv (n : RegNum) (v : Magnitude) : List HostEvent :=
  [hostW (limbOffset n 0) (limb v 0), hostW (limbOffset n 1) (limb v 1),
   hostW (limbOffset n 2) (limb v 2), hostW (limbOffset n 3) (limb v 3)]

/-- `RDV Vn -> x`: the accesses (`30_encoding.md` R90). -/
def macroRdv (n : RegNum) : List HostEvent :=
  [hostR (limbOffset n 0), hostR (limbOffset n 1), hostR (limbOffset n 2), hostR (limbOffset n 3)]

/-- The word `k` of a text: bytes past its end are 0 (`30_encoding.md` R90 `LDT`). -/
def ldtWord (t : List Byte) (k : Nat) : Limb :=
  let b := fun i => t.getD (8 * k + i) 0
  ofBytes (b 0) (b 1) (b 2) (b 3) (b 4) (b 5) (b 6) (b 7)

/-- `LDT "s"`, for a text of at most 255 bytes (`30_encoding.md` R90). -/
def macroLdt (t : List Byte) : List HostEvent :=
  (List.range ((t.length + 7) / 8)).map (fun k => hostW (textOffset (Fin.ofNat 32 k)) (ldtWord t k))
    ++ [hostW 0x020 (BitVec.ofNat 64 t.length)]

/-- `RDT -> s`: the accesses of a host whose first read returned `n` (`30_encoding.md` R90). -/
def macroRdt (n : Nat) : List HostEvent :=
  hostR 0x020 :: (List.range ((n + 7) / 8)).map (fun k => hostR (textOffset (Fin.ofNat 32 k)))

/-- `CHECK` (`30_encoding.md` R90). -/
def macroCheck : List HostEvent := [hostR 0x008]

/-- A host access at a physical address, as the window receives it; an access outside the window is not the window's
(`20_memory.md` R50). -/
def readAt (address width : Nat) : List HostEvent := (windowOffset address).toList.map (fun off => .read off width)

/-- A host write at a physical address, as the window receives it (`20_memory.md` R50). -/
def writeAt (address width : Nat) (w : Limb) : List HostEvent :=
  (windowOffset address).toList.map (fun off => .write off width w)

end Sys2Proof.Machine
end

