-- ==== Sys2Proof/Safety.lean ====
section
/-! DEFINITION. What counts as a good state and a good run, and the frames that the statements speak of. -/

namespace Sys2Proof.Machine

/-- The fatal state is exactly the one that holds code 4, and no command is in flight in it (`60_exceptions.md` R172,
`20_memory.md` R61); the error code is one the core produces (R170); a command in flight has a cycle left (R9); the
text cells keep their canonical form. -/
structure CoreInv (s : State) : Prop where
  text_wf : s.text.wf
  err_produced : s.err.toNat ≤ 5
  fatal_iff : s.fatal = true ↔ s.err = ErrorName.divisionByZero.code
  fatal_idle : s.fatal = true → s.inFlight = none
  remaining_pos : ∀ c, s.inFlight = some c → 1 ≤ c.remaining

/-- `k` steps, stopping at the first fault or refusal: `Host.Core.run` of this machine, over its own state type. -/
def run : Nat → State → Host.Outcome State Fault Refusal
  | 0, s => .next s
  | k + 1, s =>
    match step s with
    | .next t => run k t
    | .fault r => .fault r
    | .refused r => .refused r

/-- No write was dropped and no fatal condition stands: what a claim about a host program takes as part of its
postcondition (`60_exceptions.md` R188). -/
def Clean (s : State) : Prop := s.haz = false ∧ s.fatal = false

/-- The events that a command in flight outlives: a core cycle, a read, and a write that is no soft reset
(`20_memory.md` R63, `70_reset_and_hazards.md` R201). An access must be one that the window takes. -/
def HostEvent.KeepsCommand : HostEvent → Prop
  | .read off width => width = 8 ∧ off.toNat % 8 = 0
  | .write off width w => width = 8 ∧ off.toNat % 8 = 0 ∧ (off.toNat = 0x010 → w.getLsbD 0 = false)
  | .cycle => True
  | .hardReset => False

/-- `t` is `s` but for what host accesses to a busy core can change: HAZ, and the model's queue of events, words read
and draw counter. -/
def SameButAccesses (s t : State) : Prop :=
  t = { s with haz := t.haz, pending := t.pending, readLog := t.readLog, draws := t.draws }

/-- Every register outside `ns` holds in `t` what it held in `s`. -/
def RegsSameExcept (ns : List RegNum) (s t : State) : Prop := ∀ n, n ∉ ns → readReg t n = readReg s n

/-- Every byte of T reads in `t` as it read in `s`. -/
def TextSame (s t : State) : Prop := ∀ i, readText t i = readText s i

/-- The queue of events, the words read and the two draw counters are in `t` as in `s`. -/
def SurroundingsSame (s t : State) : Prop :=
  t.pending = s.pending ∧ t.readLog = s.readLog ∧ t.resets = s.resets ∧ t.draws = s.draws

/-- What no completing command changes: HAZ and the model's own fields; and no command is in flight after it. -/
def CommandEnded (s t : State) : Prop :=
  t.inFlight = none ∧ t.haz = s.haz ∧ SurroundingsSame s t

/-- The command ended with the code of `e`, not fatal unless the core was. -/
def EndedWith (e : ErrorName) (s t : State) : Prop := t.err = e.code ∧ t.fatal = s.fatal ∧ CommandEnded s t

/-- PARSE into `rd` on `s` completes with the outcome `e` and the value `v`: it writes that register and ERR, and
nothing else (`42_codec.md` R141, R145). -/
def ParseEnds (e : ErrorName) (v : Magnitude) (rd : RegNum) (s : State) : Prop :=
  ∃ t, exec (.parse rd) s = .next t ∧ readReg t rd = v ∧ EndedWith e s t ∧ t.cf = s.cf ∧
    RegsSameExcept [rd] s t ∧ TextSame s t ∧ t.tlen = s.tlen

end Sys2Proof.Machine
end

