-- ==== Sys2Proof/Certificates/Slice0/Obligations.lean ====
section
/-! DEFINITION. The statements for the provers, from the numbered rules of spec/. -/

open Sys2Proof Sys2Proof.Machine

/-! ### Encoding -/

/-- Decoding an encoded well-formed command gives it back, every register field at every value (`30_encoding.md`
sections 1, 2 and 4). -/
def Obligations.DecodeEncodeIdentity : Prop :=
  ∀ i : Instr, i.wellFormed = true → decode (encode i) = .ok i

/-- A word that decodes is the encoding of the command it decodes to, which is well-formed: no bit of a word is
dropped (`30_encoding.md` sections 1, 2 and 4). -/
def Obligations.EncodeDecodeIdentity : Prop :=
  ∀ (w : CommandWord) (i : Instr), decode w = .ok i → i.wellFormed = true ∧ encode i = w

/-- The opcode map, row by row, with its masks and matches written out; a DIVMOD also needs `rd ≠ rd2` (R82, R84). -/
def Obligations.DecodeFollowsOpcodeMap : Prop :=
  ∀ w : CommandWord,
    let rd : RegNum := (w.extractLsb' 8 4).toFin
    let rs1 : RegNum := (w.extractLsb' 12 4).toFin
    let rs2 : RegNum := (w.extractLsb' 16 4).toFin
    let rd2 : RegNum := (w.extractLsb' 20 4).toFin
    (decode w = .ok (.add rd rs1 rs2) ↔ w &&& 0xFFF000FF = 0x00000001) ∧
    (decode w = .ok (.sub rd rs1 rs2) ↔ w &&& 0xFFF000FF = 0x00000002) ∧
    (decode w = .ok (.lt rs1 rs2) ↔ w &&& 0xFFF00FFF = 0x00000003) ∧
    (decode w = .ok (.mul rd rs1 rs2) ↔ w &&& 0xFFF000FF = 0x00000004) ∧
    (decode w = .ok (.div rd rs1 rs2) ↔ w &&& 0xFFF000FF = 0x00000008) ∧
    (decode w = .ok (.mod rd rs1 rs2) ↔ w &&& 0xFFF000FF = 0x00000009) ∧
    (decode w = .ok (.divmod rd rd2 rs1 rs2) ↔ w &&& 0xFF0000FF = 0x0000000A ∧ rd ≠ rd2) ∧
    (decode w = .ok (.parse rd) ↔ w &&& 0xFFFFF0FF = 0x00000010) ∧
    (decode w = .ok (.format rs1) ↔ w &&& 0xFFFF0FFF = 0x00000011)

/-- Each mask includes all of `op`, and at most one row of the map matches a word (R83). -/
def Obligations.OpcodeRowsNeverOverlap : Prop :=
  (∀ o : Opcode, o.mask &&& 0xFF = 0xFF) ∧
  ∀ (w : CommandWord) (o o' : Opcode), w &&& o.mask = o.pattern → w &&& o'.mask = o'.pattern → o = o'

/-- Words written out from the spec's own examples decode to the commands they stand for (`30_encoding.md` section 4,
`95_test_vectors.md` sections 2 and 3). -/
def Obligations.ExampleWordsDecode : Prop :=
  decode 0x00021301 = .ok (.add 3 1 2) ∧ decode 0x00023402 = .ok (.sub 4 3 2) ∧
  decode 0x00021003 = .ok (.lt 1 2) ∧ decode 0x00021504 = .ok (.mul 5 1 2) ∧
  decode 0x00087A08 = .ok (.div 10 7 8) ∧ decode 0x00021209 = .ok (.mod 2 1 2) ∧
  decode 0x0052140A = .ok (.divmod 4 5 1 2) ∧ decode 0x00000110 = .ok (.parse 1) ∧
  decode 0x0000A011 = .ok (.format 10)

/-! ### The kernel -/

/-- ADD (R101): its encoding, sum, carry, and all that it leaves alone. -/
def Obligations.AddResultAndFrame : Prop :=
  ∀ (rd rs1 rs2 : RegNum) (s : State),
    encode (.add rd rs1 rs2) &&& 0xFFF000FF = 0x00000001 ∧
    ∃ t, exec (.add rd rs1 rs2) s = .next t ∧
      (readReg t rd).toNat = ((readReg s rs1).toNat + (readReg s rs2).toNat) % 2 ^ 256 ∧
      (t.cf = true ↔ 2 ^ 256 ≤ (readReg s rs1).toNat + (readReg s rs2).toNat) ∧
      EndedWith .noError s t ∧ RegsSameExcept [rd] s t ∧ TextSame s t ∧ t.tlen = s.tlen

/-- SUB (R104): its encoding, difference, borrow, and all that it leaves alone. -/
def Obligations.SubResultAndFrame : Prop :=
  ∀ (rd rs1 rs2 : RegNum) (s : State),
    encode (.sub rd rs1 rs2) &&& 0xFFF000FF = 0x00000002 ∧
    ∃ t, exec (.sub rd rs1 rs2) s = .next t ∧
      ((readReg t rd).toNat : Int) = ((readReg s rs1).toNat : Int) - (readReg s rs2).toNat +
        (if (readReg s rs1).toNat < (readReg s rs2).toNat then 2 ^ 256 else 0) ∧
      (t.cf = true ↔ (readReg s rs1).toNat < (readReg s rs2).toNat) ∧
      EndedWith .noError s t ∧ RegsSameExcept [rd] s t ∧ TextSame s t ∧ t.tlen = s.tlen

/-- LT (R107): its encoding, the comparison in CF, and no register written. -/
def Obligations.LtResultAndFrame : Prop :=
  ∀ (rs1 rs2 : RegNum) (s : State),
    encode (.lt rs1 rs2) &&& 0xFFF00FFF = 0x00000003 ∧
    ∃ t, exec (.lt rs1 rs2) s = .next t ∧
      (t.cf = true ↔ (readReg s rs1).toNat < (readReg s rs2).toNat) ∧
      EndedWith .noError s t ∧ RegsSameExcept [] s t ∧ TextSame s t ∧ t.tlen = s.tlen

/-- MUL (R110): its encoding, the low 256 bits of the product, overflow, and all that it leaves alone. -/
def Obligations.MulResultAndFrame : Prop :=
  ∀ (rd rs1 rs2 : RegNum) (s : State),
    encode (.mul rd rs1 rs2) &&& 0xFFF000FF = 0x00000004 ∧
    ∃ t, exec (.mul rd rs1 rs2) s = .next t ∧
      (readReg t rd).toNat = (readReg s rs1).toNat * (readReg s rs2).toNat % 2 ^ 256 ∧
      (t.cf = true ↔ 2 ^ 256 ≤ (readReg s rs1).toNat * (readReg s rs2).toNat) ∧
      EndedWith .noError s t ∧ RegsSameExcept [rd] s t ∧ TextSame s t ∧ t.tlen = s.tlen

/-- The laws of ADD (R103): commutative in result and CF, 0 is its identity, exact when CF is 0. -/
def Obligations.AddLaws : Prop :=
  ∀ (rd rs1 rs2 : RegNum) (s t : State), exec (.add rd rs1 rs2) s = .next t →
    (∀ u, exec (.add rd rs2 rs1) s = .next u → readReg u rd = readReg t rd ∧ u.cf = t.cf) ∧
    (readReg s rs2 = 0 → readReg t rd = readReg s rs1 ∧ t.cf = false) ∧
    (t.cf = false → (readReg t rd).toNat = (readReg s rs1).toNat + (readReg s rs2).toNat)

/-- The laws of SUB (R106): `x − x` is 0; it undoes an ADD that did not overflow; difference plus `y` is `x` mod 2^256;
its CF is LT's. -/
def Obligations.SubLaws : Prop :=
  ∀ (rd rs1 rs2 : RegNum) (s t : State), exec (.sub rd rs1 rs2) s = .next t →
    (readReg s rs1 = readReg s rs2 → readReg t rd = 0 ∧ t.cf = false) ∧
    (∀ (a : RegNum) (r u : State), exec (.add rs1 a rs2) r = .next u → u.cf = false →
      readReg s rs1 = readReg u rs1 → readReg s rs2 = readReg r rs2 →
      readReg t rd = readReg r a ∧ t.cf = false) ∧
    ((readReg t rd).toNat + (readReg s rs2).toNat) % 2 ^ 256 = (readReg s rs1).toNat ∧
    ∀ u, exec (.lt rs1 rs2) s = .next u → u.cf = t.cf

/-- LT is the borrow chain with its difference discarded, and a total order: exactly one of `a < b`, `b < a`, `a = b`
(R108). -/
def Obligations.LtIsTotalOrder : Prop :=
  ∀ (n m : RegNum) (s t u : State), exec (.lt n m) s = .next t → exec (.lt m n) s = .next u →
    t.cf = (refSub (readReg s n) (readReg s m)).2 ∧
    ((t.cf = true ∧ u.cf = false ∧ readReg s n ≠ readReg s m) ∨
     (t.cf = false ∧ u.cf = true ∧ readReg s n ≠ readReg s m) ∨
     (t.cf = false ∧ u.cf = false ∧ readReg s n = readReg s m))

/-- The laws of MUL (R112): commutative in result and CF, 1 is its identity, exact when CF is 0. -/
def Obligations.MulLaws : Prop :=
  ∀ (rd rs1 rs2 : RegNum) (s t : State), exec (.mul rd rs1 rs2) s = .next t →
    (∀ u, exec (.mul rd rs2 rs1) s = .next u → readReg u rd = readReg t rd ∧ u.cf = t.cf) ∧
    (readReg s rs2 = 1 → readReg t rd = readReg s rs1 ∧ t.cf = false) ∧
    (t.cf = false → (readReg t rd).toNat = (readReg s rs1).toNat * (readReg s rs2).toNat)

/-! ### Division -/

/-- DIV (R121): the floor quotient for a divisor that is not 0, and the fatal condition for 0; CF unchanged. -/
def Obligations.DivResultAndFatal : Prop :=
  ∀ (rd rs1 rs2 : RegNum) (s : State),
    encode (.div rd rs1 rs2) &&& 0xFFF000FF = 0x00000008 ∧
    (readReg s rs2 ≠ 0 → ∃ t, exec (.div rd rs1 rs2) s = .next t ∧
      (readReg t rd).toNat = (readReg s rs1).toNat / (readReg s rs2).toNat ∧
      EndedWith .noError s t ∧ t.cf = s.cf ∧ RegsSameExcept [rd] s t ∧ TextSame s t ∧ t.tlen = s.tlen) ∧
    (readReg s rs2 = 0 → ∃ t, exec (.div rd rs1 rs2) s = .next t ∧
      t.err = 4 ∧ t.fatal = true ∧
      CommandEnded s t ∧ t.cf = s.cf ∧ RegsSameExcept [] s t ∧ TextSame s t ∧ t.tlen = s.tlen)

/-- MOD (R122): the remainder for a divisor that is not 0, and 0 without an error for 0; CF unchanged. -/
def Obligations.ModResultAndFrame : Prop :=
  ∀ (rd rs1 rs2 : RegNum) (s : State),
    encode (.mod rd rs1 rs2) &&& 0xFFF000FF = 0x00000009 ∧
    ∃ t, exec (.mod rd rs1 rs2) s = .next t ∧
      (readReg s rs2 ≠ 0 → (readReg t rd).toNat = (readReg s rs1).toNat % (readReg s rs2).toNat) ∧
      (readReg s rs2 = 0 → readReg t rd = 0) ∧
      EndedWith .noError s t ∧ t.cf = s.cf ∧ RegsSameExcept [rd] s t ∧ TextSame s t ∧ t.tlen = s.tlen

/-- DIVMOD (R123): quotient and remainder for two different destinations and a divisor that is not 0; the fatal
condition for 0; illegal for one destination named twice, whatever the divisor. -/
def Obligations.DivmodResultFatalAndIllegal : Prop :=
  ∀ (rd rd2 rs1 rs2 : RegNum) (s : State),
    encode (.divmod rd rd2 rs1 rs2) &&& 0xFF0000FF = 0x0000000A ∧
    (rd ≠ rd2 → readReg s rs2 ≠ 0 → ∃ t, exec (.divmod rd rd2 rs1 rs2) s = .next t ∧
      (readReg t rd).toNat = (readReg s rs1).toNat / (readReg s rs2).toNat ∧
      (readReg t rd2).toNat = (readReg s rs1).toNat % (readReg s rs2).toNat ∧
      EndedWith .noError s t ∧ t.cf = s.cf ∧ RegsSameExcept [rd, rd2] s t ∧ TextSame s t ∧ t.tlen = s.tlen) ∧
    (rd ≠ rd2 → readReg s rs2 = 0 → ∃ t, exec (.divmod rd rd2 rs1 rs2) s = .next t ∧
      t.err = 4 ∧ t.fatal = true ∧
      CommandEnded s t ∧ t.cf = s.cf ∧ RegsSameExcept [] s t ∧ TextSame s t ∧ t.tlen = s.tlen) ∧
    (rd = rd2 → ∃ t, exec (.divmod rd rd2 rs1 rs2) s = .next t ∧
      EndedWith .illegalCommand s t ∧ t.cf = s.cf ∧ RegsSameExcept [] s t ∧ TextSame s t ∧ t.tlen = s.tlen)

/-- DIV, MOD and DIVMOD agree, and quotient times divisor plus remainder is the dividend (R124), with the remainder
below the divisor and the quotient at most the dividend (R120). -/
def Obligations.DivisionResultsAgree : Prop :=
  ∀ (q r q' r' a b : RegNum) (s t u v : State), q ≠ r → readReg s b ≠ 0 →
    exec (.divmod q r a b) s = .next t → exec (.div q' a b) s = .next u → exec (.mod r' a b) s = .next v →
    readReg t q = readReg u q' ∧ readReg t r = readReg v r' ∧
    (readReg u q').toNat * (readReg s b).toNat + (readReg v r').toNat = (readReg s a).toNat ∧
    (readReg v r').toNat < (readReg s b).toNat ∧ (readReg u q').toNat ≤ (readReg s a).toNat

/-! ### The codec -/

/-- PARSE (R141), its tests in order. A text that is neither empty nor a lone `'+'` is taken apart into at most one
`'+'`, zeros, and a rest that starts with no `'0'`; the rest decides. -/
def Obligations.ParseOutcome : Prop :=
  ∀ (rd : RegNum) (s : State),
    encode (.parse rd) &&& 0xFFFFF0FF = 0x00000010 ∧
    (s.tlen = 0 → ParseEnds .emptyInput 0 rd s) ∧
    (textOperand s = [0x2B] → ParseEnds .badSyntax 0 rd s) ∧
    ∀ (plus : Bool) (zeros : Nat) (rest : List Byte),
      textOperand s = (if plus then [0x2B] else []) ++ List.replicate zeros 0x30 ++ rest →
      (zeros ≠ 0 ∨ rest ≠ []) → rest.head? ≠ some 0x30 →
      (plus = false → zeros = 0 → rest.head? ≠ some 0x2B) →
      let digits := ∀ c ∈ rest, 0x30 ≤ c.toNat ∧ c.toNat ≤ 0x39
      let value := Nat.ofDigits 10 (rest.map (fun c => c.toNat - 0x30)).reverse
      (78 < rest.length → ParseEnds .range 0 rd s) ∧
      (rest.length ≤ 78 → ¬ digits → ParseEnds .badSyntax 0 rd s) ∧
      (rest.length ≤ 78 → digits → 2 ^ 256 ≤ value → ParseEnds .range 0 rd s) ∧
      (rest.length ≤ 78 → digits → value < 2 ^ 256 → ParseEnds .noError (BitVec.ofNat 256 value) rd s)

/-- The laws of PARSE (R145): a leading `'+'` and leading zeros do not change the value; PARSE of `dec(v)` gives `v`;
it writes one register and ERR only; T and TLEN stay. -/
def Obligations.ParseLaws : Prop :=
  ∀ (rd : RegNum) (s : State),
    (∀ (plus : Bool) (zeros : Nat) (s' t' : State), exec (.parse rd) s' = .next t' → t'.err = 0 →
      (textOperand s').head? ≠ some 0x2B →
      textOperand s = (if plus then [0x2B] else []) ++ List.replicate zeros 0x30 ++ textOperand s' →
      ParseEnds .noError (readReg t' rd) rd s) ∧
    (∀ v : Magnitude, textOperand s = dec v → ParseEnds .noError v rd s) ∧
    ∃ (e : ErrorName) (v : Magnitude), ParseEnds e v rd s

/-- `dec(v)` (R150): decimal digits of `v`, no leading zero but for 0 itself, 1 to 78 bytes. -/
def Obligations.DecIsCanonical : Prop :=
  ∀ v : Magnitude,
    (∀ c ∈ dec v, 0x30 ≤ c.toNat ∧ c.toNat ≤ 0x39) ∧
    Nat.ofDigits 10 ((dec v).map (fun c => c.toNat - 0x30)).reverse = v.toNat ∧
    (v ≠ 0 → (dec v).head? ≠ some 0x30) ∧ dec 0 = [0x30] ∧
    1 ≤ (dec v).length ∧ (dec v).length ≤ 78

/-- FORMAT (R152): the decimal digits of the source in `T[0..n−1]`, most significant first, `n` in TLEN, `T[n..255]`
and every register unchanged. -/
def Obligations.FormatResultAndFrame : Prop :=
  ∀ (rs1 : RegNum) (s : State),
    encode (.format rs1) &&& 0xFFFF0FFF = 0x00000011 ∧
    ∃ t, exec (.format rs1) s = .next t ∧
      1 ≤ t.tlen.toNat ∧ t.tlen.toNat ≤ 78 ∧
      (∀ i, (h : i < t.tlen.toNat) →
        readText t i = digitByte ((readReg s rs1).toNat / 10 ^ (t.tlen.toNat - 1 - i) % 10)) ∧
      (readReg s rs1).toNat < 10 ^ t.tlen.toNat ∧
      (1 < t.tlen.toNat → 10 ^ (t.tlen.toNat - 1) ≤ (readReg s rs1).toNat) ∧
      (∀ i, t.tlen.toNat ≤ i → readText t i = readText s i) ∧
      EndedWith .noError s t ∧ t.cf = s.cf ∧ RegsSameExcept [] s t

/-- FORMAT then PARSE is the identity on values, and PARSE then FORMAT gives the canonical form of the text (R153). -/
def Obligations.FormatParseRoundTrips : Prop :=
  (∀ (rs1 rd : RegNum) (s : State), ∃ t u, exec (.format rs1) s = .next t ∧ exec (.parse rd) t = .next u ∧
    readReg u rd = readReg s rs1 ∧ u.err = 0) ∧
  ∀ (rd : RegNum) (s t : State), exec (.parse rd) s = .next t → t.err = 0 →
    ∃ u, exec (.format rd) t = .next u ∧
      textOperand u =
        (if stripZeros (stripPlus (textOperand s)) = [] then [0x30] else stripZeros (stripPlus (textOperand s)))

/-! ### All commands -/

/-- What a completing command may change (`10_state.md` section 1): its destination registers, CF, ERR, FATAL and the
end of the command; T and TLEN for a FORMAT only. -/
def Obligations.CommandsChangeOnlyDestinations : Prop :=
  ∀ (i : Instr) (s : State), ∃ t, exec i s = .next t ∧
    CommandEnded s t ∧ RegsSameExcept (destinations i) s t ∧
    ((∀ rs1, i ≠ .format rs1) → t.text = s.text ∧ t.tlen = s.tlen) ∧
    (t.fatal = true → s.fatal = false → t.err = 4)

/-- A command's results depend on its source registers and source text only, not on any other register, text, flag or
draw (`10_state.md` section 1). -/
def Obligations.ResultsDependOnlyOnSources : Prop :=
  ∀ (i : Instr) (s s' t t' : State), exec i s = .next t → exec i s' = .next t' →
    (∀ n ∈ sources i, readReg s n = readReg s' n) → sourceText i s = sourceText i s' →
    t.err = t'.err ∧ (t.err = 0 → ∀ n ∈ destinations i, readReg t n = readReg t' n) ∧
    (i.opcode ∈ [Opcode.add, .sub, .lt, .mul] → t.cf = t'.cf) ∧
    (∀ rs1, i = .format rs1 → textOperand t = textOperand t')

/-- No division command and no codec command writes CF (`10_state.md` section 3). -/
def Obligations.OnlyKernelCommandsWriteCf : Prop :=
  ∀ (i : Instr) (s t : State), exec i s = .next t → i.opcode ∉ [Opcode.add, .sub, .lt, .mul] → t.cf = s.cf

/-- Every error is precise (R175): a command that completes with an error leaves T, TLEN, CF and HAZ as they were, and
every register too, but for PARSE's destination, which is 0. -/
def Obligations.ErrorsArePrecise : Prop :=
  ∀ (c : InFlight) (s t : State), completeCommand c s = .next t → t.err ≠ 0 →
    CommandEnded s t ∧ t.text = s.text ∧ t.tlen = s.tlen ∧ t.cf = s.cf ∧
    ∀ n, readReg t n = readReg s n ∨ (readReg t n = 0 ∧ c.illegalHi = false ∧ decode c.cur = .ok (.parse n))

/-- Illegal commands (R86): a CMD write whose high bits are not zero, whose word matches no row, or which is a DIVMOD
with `rd = rd2`, is accepted, is BUSY for a cycle at least, and completes with code 5 and no other effect. That the
completion is the core cycle in which one cycle is left is the reading of log entry 15; that such a cycle passes when no
event is to come is the model's choice, log entry 5. -/
def Obligations.IllegalCommandCompletes : Prop :=
  ∀ (s : State) (w : Limb), s.busy = false → s.fatal = false →
    (w.extractLsb' 32 32 ≠ 0 ∨ (∀ o : Opcode, w.extractLsb' 0 32 &&& o.mask ≠ o.pattern) ∨
      (w.extractLsb' 0 8 = 0x0A ∧ w.extractLsb' 8 4 = w.extractLsb' 20 4)) →
    ∃ c, hostWrite 0x018 w s = { s with inFlight := some c } ∧ 1 ≤ c.remaining ∧
      (∀ u, completeCommand c u = .next (raiseRecoverable .illegalCommand u)) ∧
      ∀ (u : State) (rest : List HostEvent), u.inFlight = some { c with remaining := 1 } →
        ((u.pending = [] ∧ rest = []) ∨ u.pending = .cycle :: rest) →
        ∃ t, step u = .next t ∧ EndedWith .illegalCommand { u with pending := rest } t ∧
          t.regs = u.regs ∧ t.cf = u.cf ∧ t.tlen = u.tlen ∧ t.text = u.text

/-! ### The window -/

/-- Reading ID gives its constant and writing it does nothing, in every state (R26). -/
def Obligations.IdIsConstant : Prop :=
  ∀ (s : State) (w : Limb), event (.write 0x000 8 w) s = .next s ∧
    ∃ v : Limb, event (.read 0x000 8) s = .next { s with readLog := v :: s.readLog } ∧
      v.extractLsb' 0 16 = 0x0001 ∧ v.extractLsb' 16 16 = 0x4D4D ∧ v.extractLsb' 32 32 = 0 ∧
      v = 0x000000004D4D0001

/-- The fields a STATUS read returns, in every state, and that a write to it does nothing (`10_state.md` section 4). -/
def Obligations.StatusReadFields : Prop :=
  ∀ (s : State) (w : Limb), event (.write 0x008 8 w) s = .next s ∧
    ∃ v : Limb, event (.read 0x008 8) s = .next { s with readLog := v :: s.readLog } ∧
      v.getLsbD 0 = s.inFlight.isSome ∧ v.getLsbD 1 = s.cf ∧ v.getLsbD 2 = s.fatal ∧ v.getLsbD 3 = s.haz ∧
      v.extractLsb' 4 4 = 0 ∧ v.extractLsb' 8 8 = s.err ∧ v.extractLsb' 16 48 = 0

/-- A CTRL write acts in every state: SRST first, then CLRHAZ, other bits ignored; CTRL reads as 0 (R28); SRST does what
R201 says. -/
def Obligations.CtrlWriteActs : Prop :=
  ∀ (s : State) (w : Limb), ∃ t, event (.write 0x010 8 w) s = .next t ∧
    event (.read 0x010 8) s = .next { s with readLog := 0 :: s.readLog } ∧
    (w.getLsbD 0 = true → t = { s with
      inFlight := none, fatal := false, haz := false, err := 0, cf := false, tlen := 0 }) ∧
    (w.getLsbD 0 = false → w.getLsbD 1 = true → t = { s with haz := false }) ∧
    (w.getLsbD 0 = false → w.getLsbD 1 = false → t = s)

/-- A CMD write is dropped with HAZ while BUSY or FATAL, and otherwise accepted, BUSY in the same step with at least one
cycle to go (R61). CMD reads as 0 in every state (`10_state.md` section 4). -/
def Obligations.CmdWriteAcceptedOrDropped : Prop :=
  ∀ (s : State) (w : Limb), event (.read 0x018 8) s = .next { s with readLog := 0 :: s.readLog } ∧
    ∃ t, event (.write 0x018 8 w) s = .next t ∧
    (s.busy = true ∨ s.fatal = true → t = { s with haz := true }) ∧
    (s.busy = false → s.fatal = false → t.busy = true ∧
      ∃ c, t = { s with inFlight := some c } ∧ c.cur = w.extractLsb' 0 32 ∧
        (c.illegalHi = true ↔ w.extractLsb' 32 32 ≠ 0) ∧ 1 ≤ c.remaining ∧
        c.remaining = latencyOf c.cur s)

/-- TLEN holds the low 8 bits of a host write, and reads as them with the higher bits 0; the write is dropped while
BUSY; its reset value is 0 (`10_state.md` section 4). -/
def Obligations.TlenReadWrite : Prop :=
  State.reset.tlen = 0 ∧
  ∀ (s : State) (w : Limb),
    (s.busy = false → event (.write 0x020 8 w) s = .next { s with tlen := w.extractLsb' 0 8 } ∧
      ∃ v : Limb, event (.read 0x020 8) s = .next { s with readLog := v :: s.readLog } ∧
        v.extractLsb' 0 8 = s.tlen ∧ v.extractLsb' 8 56 = 0) ∧
    (s.busy = true → event (.write 0x020 8 w) s = .next { s with haz := true })

/-- The text buffer through the window while idle: the word at `0x100 + 8k` holds `T[8k+i]` in bits `[8i+7 : 8i]`, read
and written (`10_state.md` section 5, `20_memory.md` section 2). -/
def Obligations.TextWordsAreLittleEndian : Prop :=
  ∀ (s : State) (k : Nat) (w : Limb), k < 32 → s.busy = false →
    (∃ v : Limb, event (.read (BitVec.ofNat 12 (0x100 + 8 * k)) 8) s = .next { s with readLog := v :: s.readLog } ∧
      ∀ i < 8, v.extractLsb' (8 * i) 8 = readText s (8 * k + i)) ∧
    ∃ t, event (.write (BitVec.ofNat 12 (0x100 + 8 * k)) 8 w) s = .next t ∧
      (∀ i < 8, readText t (8 * k + i) = w.extractLsb' (8 * i) 8) ∧
      (∀ a, a < 8 * k ∨ 8 * k + 8 ≤ a → readText t a = readText s a) ∧ t = { s with text := t.text }

/-- Limb `j` of `Vn` through the window while idle, at `0x200 + 0x20·n + 0x8·j`: read and written, every other limb and
register unchanged (`10_state.md` section 1, `20_memory.md` section 2). -/
def Obligations.LimbsReadWrite : Prop :=
  ∀ (s : State) (n : Fin 16) (j : Fin 4) (w : Limb), s.busy = false →
    event (.read (BitVec.ofNat 12 (0x200 + 0x20 * n.val + 0x8 * j.val)) 8) s =
      .next { s with readLog := (readReg s n).extractLsb' (64 * j.val) 64 :: s.readLog } ∧
    ∃ t, event (.write (BitVec.ofNat 12 (0x200 + 0x20 * n.val + 0x8 * j.val)) 8 w) s = .next t ∧
      (readReg t n).extractLsb' (64 * j.val) 64 = w ∧
      (∀ j' : Fin 4, j' ≠ j → (readReg t n).extractLsb' (64 * j'.val) 64 = (readReg s n).extractLsb' (64 * j'.val) 64) ∧
      RegsSameExcept [n] s t ∧ t = { s with regs := t.regs }

/-- Reserved offsets read as 0 and ignore writes, BUSY or not, without HAZ (R52). -/
def Obligations.ReservedOffsetsReadZero : Prop :=
  ∀ (s : State) (off : Offset) (w : Limb), off.toNat % 8 = 0 →
    (0x028 ≤ off.toNat ∧ off.toNat ≤ 0x0FF) ∨ (0x400 ≤ off.toNat ∧ off.toNat ≤ 0xFFF) →
    event (.read off 8) s = .next { s with readLog := 0 :: s.readLog } ∧ event (.write off 8 w) s = .next s

/-- An access is a fault of the host exactly when it does not move 8 bytes at a multiple of 8 (`20_memory.md`
section 2; that the model stops there is its choice, log entry 9, after `60_exceptions.md` section 6). -/
def Obligations.OnlyAlignedWordAccesses : Prop :=
  ∀ (s : State) (off : Offset) (width : Nat) (w : Limb),
    ((width = 8 ∧ off.toNat % 8 = 0) →
      (∃ t, event (.read off width) s = .next t) ∧ ∃ t, event (.write off width w) s = .next t) ∧
    (¬ (width = 8 ∧ off.toNat % 8 = 0) →
      event (.read off width) s = .fault (.busError off width) ∧
      event (.write off width w) s = .fault (.busError off width))

/-- While BUSY (R63): a write to V, T, TLEN or CMD is dropped and sets HAZ; a read of V, T or TLEN returns a draw and
has no other effect (its form is the model's choice, log entry 3); ID, STATUS, CTRL and the reserved offsets behave as when idle, and CMD reads as 0. -/
def Obligations.BusyAccesses : Prop :=
  ∀ (s : State) (off : Offset) (w : Limb), s.busy = true → off.toNat % 8 = 0 →
    ((off.toNat = 0x018 ∨ off.toNat = 0x020 ∨ (0x100 ≤ off.toNat ∧ off.toNat < 0x400)) →
      event (.write off 8 w) s = .next { s with haz := true }) ∧
    ((off.toNat = 0x020 ∨ (0x100 ≤ off.toNat ∧ off.toNat < 0x400)) →
      event (.read off 8) s = .next { s with
        readLog := Config.busyReadDraw s.draws :: s.readLog, draws := s.draws + 1 }) ∧
    (off.toNat = 0x018 → event (.read off 8) s = .next { s with readLog := 0 :: s.readLog }) ∧
    ((off.toNat < 0x018 ∨ (0x028 ≤ off.toNat ∧ off.toNat < 0x100) ∨ 0x400 ≤ off.toNat) →
      event (.write off 8 w) s = .next (if off.toNat = 0x010 then writeCtrl w s else s) ∧
      ∃ v : Limb, event (.read off 8) s = .next { s with readLog := v :: s.readLog } ∧
        (off.toNat = 0x000 → v = idValue) ∧ (off.toNat = 0x008 → v = statusWord s) ∧
        (off.toNat ≠ 0x000 → off.toNat ≠ 0x008 → v = 0))

/-- HAZ becomes 1 exactly when the step drops a host write: a CMD write while BUSY or FATAL, or a write to V, T or TLEN
while BUSY; that drop has no other effect; and HAZ stays 1 until CTRL's CLRHAZ or SRST or a hard reset (R210). -/
def Obligations.HazExactlyOnDroppedWrites : Prop :=
  ∀ (s t : State), step s = .next t →
    let dropped := ∃ off w rest, s.pending = .write off 8 w :: rest ∧
      ((off.toNat = 0x018 ∧ (s.busy = true ∨ s.fatal = true)) ∨
       (off.toNat % 8 = 0 ∧ (off.toNat = 0x020 ∨ (0x100 ≤ off.toNat ∧ off.toNat < 0x400)) ∧ s.busy = true))
    (s.haz = false → (t.haz = true ↔ dropped)) ∧
    (dropped → t = { s with haz := true, pending := s.pending.tail }) ∧
    (s.haz = true → t.haz = false → ∃ rest, s.pending = .hardReset :: rest ∨
      ∃ w : Limb, s.pending = .write 0x010 8 w :: rest ∧ (w.getLsbD 0 = true ∨ w.getLsbD 1 = true))

/-! ### The fatal state -/

/-- The fatal state is left by a hard reset or an SRST write only, and ERR stays 4 in it (`60_exceptions.md` sections 1
and 3). The premise rules out states that no run reaches. -/
def Obligations.FatalUntilReset : Prop :=
  ∀ (s t : State), CoreInv s → s.fatal = true → step s = .next t →
    (t.fatal = true ∧ t.err = 4) ∨
    ∃ rest, s.pending = .hardReset :: rest ∨
      ∃ w : Limb, s.pending = .write 0x010 8 w :: rest ∧ w.getLsbD 0 = true

/-- In the fatal state a CMD write is dropped and sets HAZ, a core cycle changes nothing, and V, T and TLEN stay
readable and writable (`60_exceptions.md` section 1). -/
def Obligations.FatalBlocksCommandsOnly : Prop :=
  ∀ (s : State) (w : Limb) (n : Fin 16) (j : Fin 4) (k : Fin 32), CoreInv s → s.fatal = true →
    event (.write 0x018 8 w) s = .next { s with haz := true } ∧
    event .cycle s = .next s ∧
    event (.write (limbOffset n j) 8 w) s = .next (writeLimb n j w s) ∧
    event (.read (limbOffset n j) 8) s = .next (returnWord (limb (readReg s n) j) s) ∧
    event (.write (textOffset k) 8 w) s = .next (writeTextWord k w s) ∧
    event (.read (textOffset k) 8) s = .next (returnWord (readTextWord s k) s) ∧
    event (.write 0x020 8 w) s = .next { s with tlen := w.extractLsb' 0 8 } ∧
    event (.read 0x020 8) s = .next (returnWord (s.tlen.setWidth 64) s)

/-! ### Steps -/

/-- When the command in flight is in its last cycle and its word decodes to a well-formed command `i`, the step of a
core cycle is `exec i` (`20_memory.md` section 3). That the cycle with one left is the completion is the reading of log
entry 15; the queue, and that a step with an empty queue is a core cycle, are the model's choice, log entry 5. -/
def Obligations.StepRunsDecodedCommand : Prop :=
  ∀ (s : State) (c : InFlight) (i : Instr), s.inFlight = some c → c.remaining = 1 → c.illegalHi = false →
    decode c.cur = .ok i → i.wellFormed = true →
    (s.pending = [] → step s = exec i s) ∧
    ∀ rest, s.pending = .cycle :: rest → step s = exec i { s with pending := rest }

/-- An accepted CMD write completes after exactly its latency in cycles, and nothing of it shows before
(`20_memory.md` section 3, `70_reset_and_hazards.md` section 4): a command with the results of its rule on the state at
acceptance (log entry 16), an illegal word with ERR 5 and no other effect. So it does with no event to come, each step a
core cycle (log entry 5), and with host accesses between the cycles, which change HAZ and what the host has read only.
The completion is the cycle in which the count reaches 0 (log entry 15). -/
def Obligations.AcceptedCommandCompletes : Prop :=
  ∀ (s : State) (w : Limb), s.busy = false → s.fatal = false →
    let n := latencyOf (w.extractLsb' 0 32) s
    let inFlightAfter := fun k : Nat =>
      some { cur := w.extractLsb' 0 32, illegalHi := w.extractLsb' 32 32 != 0, remaining := n - k : InFlight }
    1 ≤ n ∧ ∃ t, t.busy = false ∧
      (∀ i, decodeCmdWrite w = .ok i → exec i s = .next t) ∧
      (∀ e, decodeCmdWrite w = .error e → t = { s with err := 5 }) ∧
      (s.pending = [] → run n (hostWrite 0x018 w s) = .next t ∧
        ∀ k < n, run k (hostWrite 0x018 w s) = .next { s with inFlight := inFlightAfter k }) ∧
      ∀ events rest : List HostEvent, s.pending = events ++ .cycle :: rest → (∀ e ∈ events, e.KeepsCommand) →
        events.count .cycle + 1 = n →
        (∃ u, run (events.length + 1) (hostWrite 0x018 w s) = .next u ∧ SameButAccesses t u ∧ u.pending = rest) ∧
        ∀ k ≤ events.length, ∃ u, run k (hostWrite 0x018 w s) = .next u ∧
          SameButAccesses { s with inFlight := inFlightAfter ((events.take k).count .cycle) } u

/-- The events take effect one at a time in the order of the queue; a step takes the oldest one and leaves the others
(`20_memory.md` section 3; the queue is the model's, log entry 5). -/
def Obligations.EventsTakeEffectInOrder : Prop :=
  ∀ (s t : State), step s = .next t → t.pending = s.pending.tail ∧
    (∀ e rest, s.pending = e :: rest → event e { s with pending := rest } = .next t) ∧
    (s.pending = [] → event .cycle s = .next t)

/-- No host access and no command is lost to a stop: a step that does not answer a next state is a host access the
window does not take (`60_exceptions.md` section 6; that the model stops there is its choice, log entry 9). -/
def Obligations.StepsStopOnlyOnBadAccesses : Prop :=
  ∀ s : State, (∃ t, step s = .next t) ∨
    ∃ off width rest, ¬ (width = 8 ∧ off.toNat % 8 = 0) ∧ step s = .fault (.busError off width) ∧
      (s.pending = .read off width :: rest ∨ ∃ w, s.pending = .write off width w :: rest)

/-- No read has a side effect on the core (R57): a read changes what the host has read, and the draw counter of the
model (log entries 3 and 6), only. -/
def Obligations.ReadsHaveNoSideEffect : Prop :=
  ∀ (s t : State) (off : Offset) (width : Nat), event (.read off width) s = .next t →
    ∃ v : Limb, t = { s with readLog := v :: s.readLog, draws := t.draws }

/-! ### Reset and the invariant -/

/-- The state after reset: control state 0, no command in flight (R200, R37), and V and T at the model's draws, which
log entries 1 and 2 name. -/
def Obligations.ResetState : Prop :=
  State.reset.busy = false ∧ State.reset.cf = false ∧ State.reset.fatal = false ∧ State.reset.haz = false ∧
  State.reset.err = 0 ∧ State.reset.tlen = 0 ∧ State.reset.inFlight = none ∧
  (∀ (n : Fin 16) (j : Fin 4), limb (readReg State.reset n) j = Config.registerDraw 0 n j) ∧
  ∀ i, readText State.reset i = Config.textDraw 0 i

/-- A hard reset in any state (R200): control state 0, no command in flight, V and T draws of the new reset (log
entries 1, 2 and 4); a command in flight is abandoned. -/
def Obligations.HardResetFromAnyState : Prop :=
  ∀ s : State, ∃ t, event .hardReset s = .next t ∧
    t.busy = false ∧ t.cf = false ∧ t.fatal = false ∧ t.haz = false ∧ t.err = 0 ∧ t.tlen = 0 ∧ t.inFlight = none ∧
    (∀ (n : Fin 16) (j : Fin 4), limb (readReg t n) j = Config.registerDraw (s.resets + 1) n j) ∧
    ∀ i, readText t i = Config.textDraw (s.resets + 1) i

/-- The state after reset meets the invariant. -/
def Obligations.ResetMeetsInvariant : Prop := CoreInv State.reset

/-- Every step keeps the invariant: FATAL exactly with code 4 and no command in flight, an error code the core produces,
at least one cycle left in flight, the text cells in canonical form (`60_exceptions.md` section 1, `20_memory.md`
section 3). -/
def Obligations.StepKeepsInvariant : Prop :=
  ∀ s t : State, CoreInv s → step s = .next t → CoreInv t

/-! ### Reference datapaths -/

/-- The carry chain of ADD gives the sum and the carry of its rule (R102). -/
def Obligations.AddDatapathConforms : Prop :=
  ∀ x y : Magnitude, refAdd x y = (sumOf x y, carryOut x y)

/-- The borrow chain of SUB gives the difference and the borrow of its rule (R105). -/
def Obligations.SubDatapathConforms : Prop :=
  ∀ x y : Magnitude, refSub x y = (differenceOf x y, borrowOut x y)

/-- The schoolbook product gives the low 256 bits and the overflow of MUL's rule (R111). -/
def Obligations.MulDatapathConforms : Prop :=
  ∀ x y : Magnitude, refMul x y = (productOf x y, mulOverflow x y)

/-- The 2-by-1 division by reciprocal is exact for a normalised divisor (`41_division.md` section 2; its internals
are PRESUMED, log entry 14). -/
def Obligations.Div21IsExact : Prop :=
  ∀ u1 u0 d : Nat, 2 ^ 63 ≤ d → d < 2 ^ 64 → u1 < d → u0 < 2 ^ 64 →
    div21 u1 u0 d (reciprocal d) = ((u1 * 2 ^ 64 + u0) / d, (u1 * 2 ^ 64 + u0) % d)

/-- The single-limb fast path gives floor quotient and remainder (`41_division.md` section 2; the internals of its 2-by-1
division are PRESUMED, log entry 14). -/
def Obligations.FastPathConforms : Prop :=
  ∀ x y : Nat, x < 2 ^ 256 → 0 < y → y < 2 ^ 64 → refDivSmall x y = (x / y, x % y)

/-- Algorithm D gives floor quotient and remainder (`41_division.md` section 2; the estimate and the correction of a
digit are PRESUMED, log entry 14). -/
def Obligations.AlgorithmDConforms : Prop :=
  ∀ x y : Nat, x < 2 ^ 256 → 2 ^ 64 ≤ y → y < 2 ^ 256 → refAlgorithmD x y = (x / y, x % y)

/-- The chunked multiply-accumulate gives the value of the digits, and no internal multiply or add overflows (R143,
R144). -/
def Obligations.ParseDatapathConforms : Prop :=
  ∀ s : List Byte, s.length ≤ 78 → (∀ c ∈ s, isDigit c = true) → decimalValue s ≤ maxMagnitude →
    refParseDigits s = (BitVec.ofNat 256 (decimalValue s), false)

/-- Repeated division by 10^19 gives the canonical text (R151). -/
def Obligations.FormatDatapathConforms : Prop :=
  ∀ v : Magnitude, refFormat v = dec v

/-! ### The window's place, and the host's macros -/

/-- The window is the 4096 bytes from `MM_BASE`, whatever its value, which is a multiple of 4096 (R50, R9). -/
def Obligations.WindowAtBase : Prop :=
  Config.mmBase % 4096 = 0 ∧
  (∀ off : Offset, windowOffset (Config.mmBase + off.toNat) = some off) ∧
  ∀ a, a < Config.mmBase ∨ Config.mmBase + 4096 ≤ a → windowOffset a = none

/-- `LDV Vn, v` on an idle core leaves `v` in `Vn` and nothing else changed, and `RDV Vn` then returns its limbs
(`30_encoding.md` section 4; the queue and the words read are the model's, log entries 5 and 6). -/
def Obligations.LoadAndReadRegisterMacros : Prop :=
  ∀ (s : State) (n : RegNum) (v : Magnitude) (rest : List HostEvent), s.busy = false →
    s.pending = macroLdv n v ++ macroRdv n ++ rest →
    run 8 s = .next (writeReg n v { s with
      pending := rest, readLog := [limb v 3, limb v 2, limb v 1, limb v 0] ++ s.readLog })

/-- `LDT` of a text of at most 255 bytes on an idle core makes it the text operand of PARSE, and leaves the registers
and the control state alone (`30_encoding.md` section 4; the queue is the model's, log entry 5). -/
def Obligations.LoadTextMacro : Prop :=
  ∀ (s : State) (t : List Byte) (rest : List HostEvent), t.length ≤ 255 → s.busy = false →
    s.pending = macroLdt t ++ rest →
    ∃ u, run (macroLdt t).length s = .next u ∧ textOperand u = t ∧ u.pending = rest ∧
      u = { s with text := u.text, tlen := u.tlen, pending := rest }
end

