-- ==== Sys2Proof/Laws/Arithmetic.lean ====
section
/-! SUPPORT. The arithmetic functions of the kernel and the division engine as naturals. -/

namespace Sys2Proof.Machine

@[simp] theorem sumOf_toNat (x y : Magnitude) : (sumOf x y).toNat = (x.toNat + y.toNat) % 2 ^ 256 := by
  rw [sumOf, BitVec.toNat_ofNat]

@[simp] theorem productOf_toNat (x y : Magnitude) : (productOf x y).toNat = x.toNat * y.toNat % 2 ^ 256 := by
  rw [productOf, BitVec.toNat_ofNat]

/-- The difference, with `2^256` added exactly when it borrows (`40_kernel.md` R104). -/
theorem differenceOf_toNat (x y : Magnitude) :
    ((differenceOf x y).toNat : Int) = (x.toNat : Int) - y.toNat + (if x.toNat < y.toNat then 2 ^ 256 else 0) := by
  have h1 := x.isLt
  have h2 := y.isLt
  simp only [differenceOf, BitVec.toNat_ofInt, Int.ofNat_eq_natCast]
  split <;> omega

@[simp] theorem quotientOf_toNat (x y : Magnitude) : (quotientOf x y).toNat = x.toNat / y.toNat := by
  rw [quotientOf, BitVec.toNat_ofNat]
  exact Nat.mod_eq_of_lt ((Nat.div_le_self _ _).trans_lt x.isLt)

@[simp] theorem remainderOf_toNat (x y : Magnitude) : (remainderOf x y).toNat = x.toNat % y.toNat := by
  rw [remainderOf, BitVec.toNat_ofNat]
  exact Nat.mod_eq_of_lt ((Nat.mod_le _ _).trans_lt x.isLt)

theorem carryOut_eq_true_iff (x y : Magnitude) : carryOut x y = true ↔ 2 ^ 256 ≤ x.toNat + y.toNat := by
  simp only [carryOut, decide_eq_true_eq]

theorem borrowOut_eq_true_iff (x y : Magnitude) : borrowOut x y = true ↔ x.toNat < y.toNat := by
  simp only [borrowOut, decide_eq_true_eq]

theorem mulOverflow_eq_true_iff (x y : Magnitude) : mulOverflow x y = true ↔ 2 ^ 256 ≤ x.toNat * y.toNat := by
  rw [mulOverflow, decide_eq_true_eq, ne_eq, Nat.div_eq_zero_iff]
  omega

/-- A magnitude is 0 exactly when its value is. -/
theorem magnitude_ne_zero_iff (x : Magnitude) : x ≠ 0 ↔ 0 < x.toNat := by
  rw [Nat.pos_iff_ne_zero, ne_eq, ne_eq, not_iff_not]
  exact ⟨fun h => by rw [h]; rfl, fun h => BitVec.eq_of_toNat_eq h⟩

end Sys2Proof.Machine
end

