-- ==== Sys2Proof/Laws/Memory.lean ====
section
/-! SUPPORT. The cells of the text buffer: what a lookup gives after a store, and that a store keeps the canonical
form. -/

namespace Sys2Proof.Machine

@[simp] theorem lookup_nil (a : Nat) : Memory.lookup [] a = none := rfl

theorem nil_wf : Memory.wf [] := by simp [Memory.wf]

/-- A store is seen at its own index and nowhere else. -/
theorem lookup_store (m : Memory) (a : Nat) (b : Byte) (i : Nat) :
    (m.store a b).lookup i = if a = i then some b else m.lookup i := by
  induction m with
  | nil => simp [Memory.store, Memory.lookup]
  | cons c m ih =>
    unfold Memory.store
    split
    · rfl
    · split
      · next h => subst h; by_cases h : c.1 = i <;> simp [Memory.lookup, h]
      · next h => by_cases hc : c.1 = i <;> simp_all [Memory.lookup]

/-- Every index of a store is the stored one or was there before. -/
theorem mem_store {m : Memory} {a : Nat} {b : Byte} {c : Host.Cell} (h : c ∈ m.store a b) : c = (a, b) ∨ c ∈ m := by
  induction m with
  | nil => simpa [Memory.store] using h
  | cons d m ih =>
    unfold Memory.store at h
    split at h
    · simpa using h
    · split at h <;> simp only [List.mem_cons] at h ⊢
      · tauto
      · rcases h with h | h
        · tauto
        · rcases ih h with h | h <;> tauto

/-- A store at an index of T keeps the canonical form. -/
theorem store_wf {m : Memory} (hm : m.wf) {a : Nat} (ha : a < 256) (b : Byte) : (m.store a b).wf := by
  refine ⟨?_, fun c hc => ?_⟩
  · obtain ⟨hp, -⟩ := hm
    induction m with
    | nil => simp [Memory.store]
    | cons d m ih =>
      obtain ⟨hd, hp⟩ := List.pairwise_cons.1 hp
      unfold Memory.store
      split
      · next h =>
        refine List.pairwise_cons.2 ⟨fun c hc => ?_, List.pairwise_cons.2 ⟨hd, hp⟩⟩
        rcases List.mem_cons.1 hc with rfl | hc
        · exact h
        · exact h.trans (hd c hc)
      · split
        · next h => subst h; exact List.pairwise_cons.2 ⟨hd, hp⟩
        · next h1 h2 =>
          refine List.pairwise_cons.2 ⟨fun c hc => ?_, ih hp⟩
          rcases mem_store hc with rfl | hc
          · simp only; omega
          · exact hd c hc
  · rcases mem_store hc with rfl | hc
    · exact ha
    · exact hm.2 c hc

end Sys2Proof.Machine
end

