-- ==== Sys2Proof/Laws/State.lean ====
section
/-! SUPPORT. One lemma for each field and each update of the state: what the field holds after the update. -/

namespace Sys2Proof.Machine

/-! ### After `writeReg` -/

@[simp] theorem writeReg_regs (s : State) (n : RegNum) (v : Magnitude) : (writeReg n v s).regs = s.regs.set n v := rfl
@[simp] theorem writeReg_cf (s : State) (n : RegNum) (v : Magnitude) : (writeReg n v s).cf = s.cf := rfl
@[simp] theorem writeReg_fatal (s : State) (n : RegNum) (v : Magnitude) : (writeReg n v s).fatal = s.fatal := rfl
@[simp] theorem writeReg_haz (s : State) (n : RegNum) (v : Magnitude) : (writeReg n v s).haz = s.haz := rfl
@[simp] theorem writeReg_err (s : State) (n : RegNum) (v : Magnitude) : (writeReg n v s).err = s.err := rfl
@[simp] theorem writeReg_tlen (s : State) (n : RegNum) (v : Magnitude) : (writeReg n v s).tlen = s.tlen := rfl
@[simp] theorem writeReg_text (s : State) (n : RegNum) (v : Magnitude) : (writeReg n v s).text = s.text := rfl
@[simp] theorem writeReg_inFlight (s : State) (n : RegNum) (v : Magnitude) : (writeReg n v s).inFlight = s.inFlight := rfl
@[simp] theorem writeReg_pending (s : State) (n : RegNum) (v : Magnitude) : (writeReg n v s).pending = s.pending := rfl
@[simp] theorem writeReg_readLog (s : State) (n : RegNum) (v : Magnitude) : (writeReg n v s).readLog = s.readLog := rfl
@[simp] theorem writeReg_resets (s : State) (n : RegNum) (v : Magnitude) : (writeReg n v s).resets = s.resets := rfl
@[simp] theorem writeReg_draws (s : State) (n : RegNum) (v : Magnitude) : (writeReg n v s).draws = s.draws := rfl

/-! ### After `writeCf` -/

@[simp] theorem writeCf_regs (s : State) (b : Bool) : (writeCf b s).regs = s.regs := rfl
@[simp] theorem writeCf_cf (s : State) (b : Bool) : (writeCf b s).cf = b := rfl
@[simp] theorem writeCf_fatal (s : State) (b : Bool) : (writeCf b s).fatal = s.fatal := rfl
@[simp] theorem writeCf_haz (s : State) (b : Bool) : (writeCf b s).haz = s.haz := rfl
@[simp] theorem writeCf_err (s : State) (b : Bool) : (writeCf b s).err = s.err := rfl
@[simp] theorem writeCf_tlen (s : State) (b : Bool) : (writeCf b s).tlen = s.tlen := rfl
@[simp] theorem writeCf_text (s : State) (b : Bool) : (writeCf b s).text = s.text := rfl
@[simp] theorem writeCf_inFlight (s : State) (b : Bool) : (writeCf b s).inFlight = s.inFlight := rfl
@[simp] theorem writeCf_pending (s : State) (b : Bool) : (writeCf b s).pending = s.pending := rfl
@[simp] theorem writeCf_readLog (s : State) (b : Bool) : (writeCf b s).readLog = s.readLog := rfl
@[simp] theorem writeCf_resets (s : State) (b : Bool) : (writeCf b s).resets = s.resets := rfl
@[simp] theorem writeCf_draws (s : State) (b : Bool) : (writeCf b s).draws = s.draws := rfl

/-! ### After `writeTlen` -/

@[simp] theorem writeTlen_regs (s : State) (k : BitVec 8) : (writeTlen k s).regs = s.regs := rfl
@[simp] theorem writeTlen_cf (s : State) (k : BitVec 8) : (writeTlen k s).cf = s.cf := rfl
@[simp] theorem writeTlen_fatal (s : State) (k : BitVec 8) : (writeTlen k s).fatal = s.fatal := rfl
@[simp] theorem writeTlen_haz (s : State) (k : BitVec 8) : (writeTlen k s).haz = s.haz := rfl
@[simp] theorem writeTlen_err (s : State) (k : BitVec 8) : (writeTlen k s).err = s.err := rfl
@[simp] theorem writeTlen_tlen (s : State) (k : BitVec 8) : (writeTlen k s).tlen = k := rfl
@[simp] theorem writeTlen_text (s : State) (k : BitVec 8) : (writeTlen k s).text = s.text := rfl
@[simp] theorem writeTlen_inFlight (s : State) (k : BitVec 8) : (writeTlen k s).inFlight = s.inFlight := rfl
@[simp] theorem writeTlen_pending (s : State) (k : BitVec 8) : (writeTlen k s).pending = s.pending := rfl
@[simp] theorem writeTlen_readLog (s : State) (k : BitVec 8) : (writeTlen k s).readLog = s.readLog := rfl
@[simp] theorem writeTlen_resets (s : State) (k : BitVec 8) : (writeTlen k s).resets = s.resets := rfl
@[simp] theorem writeTlen_draws (s : State) (k : BitVec 8) : (writeTlen k s).draws = s.draws := rfl

/-! ### After `complete` -/

@[simp] theorem complete_regs (s : State) : (complete s).regs = s.regs := rfl
@[simp] theorem complete_cf (s : State) : (complete s).cf = s.cf := rfl
@[simp] theorem complete_fatal (s : State) : (complete s).fatal = s.fatal := rfl
@[simp] theorem complete_haz (s : State) : (complete s).haz = s.haz := rfl
@[simp] theorem complete_err (s : State) : (complete s).err = ErrorName.noError.code := rfl
@[simp] theorem complete_tlen (s : State) : (complete s).tlen = s.tlen := rfl
@[simp] theorem complete_text (s : State) : (complete s).text = s.text := rfl
@[simp] theorem complete_inFlight (s : State) : (complete s).inFlight = none := rfl
@[simp] theorem complete_pending (s : State) : (complete s).pending = s.pending := rfl
@[simp] theorem complete_readLog (s : State) : (complete s).readLog = s.readLog := rfl
@[simp] theorem complete_resets (s : State) : (complete s).resets = s.resets := rfl
@[simp] theorem complete_draws (s : State) : (complete s).draws = s.draws := rfl

/-! ### After `raiseRecoverable` -/

@[simp] theorem raiseRecoverable_regs (s : State) (e : ErrorName) : (raiseRecoverable e s).regs = s.regs := rfl
@[simp] theorem raiseRecoverable_cf (s : State) (e : ErrorName) : (raiseRecoverable e s).cf = s.cf := rfl
@[simp] theorem raiseRecoverable_fatal (s : State) (e : ErrorName) : (raiseRecoverable e s).fatal = s.fatal := rfl
@[simp] theorem raiseRecoverable_haz (s : State) (e : ErrorName) : (raiseRecoverable e s).haz = s.haz := rfl
@[simp] theorem raiseRecoverable_err (s : State) (e : ErrorName) : (raiseRecoverable e s).err = e.code := rfl
@[simp] theorem raiseRecoverable_tlen (s : State) (e : ErrorName) : (raiseRecoverable e s).tlen = s.tlen := rfl
@[simp] theorem raiseRecoverable_text (s : State) (e : ErrorName) : (raiseRecoverable e s).text = s.text := rfl
@[simp] theorem raiseRecoverable_inFlight (s : State) (e : ErrorName) : (raiseRecoverable e s).inFlight = none := rfl
@[simp] theorem raiseRecoverable_pending (s : State) (e : ErrorName) : (raiseRecoverable e s).pending = s.pending := rfl
@[simp] theorem raiseRecoverable_readLog (s : State) (e : ErrorName) : (raiseRecoverable e s).readLog = s.readLog := rfl
@[simp] theorem raiseRecoverable_resets (s : State) (e : ErrorName) : (raiseRecoverable e s).resets = s.resets := rfl
@[simp] theorem raiseRecoverable_draws (s : State) (e : ErrorName) : (raiseRecoverable e s).draws = s.draws := rfl

/-! ### After `raiseFatal` -/

@[simp] theorem raiseFatal_regs (s : State) (e : ErrorName) : (raiseFatal e s).regs = s.regs := rfl
@[simp] theorem raiseFatal_cf (s : State) (e : ErrorName) : (raiseFatal e s).cf = s.cf := rfl
@[simp] theorem raiseFatal_fatal (s : State) (e : ErrorName) : (raiseFatal e s).fatal = true := rfl
@[simp] theorem raiseFatal_haz (s : State) (e : ErrorName) : (raiseFatal e s).haz = s.haz := rfl
@[simp] theorem raiseFatal_err (s : State) (e : ErrorName) : (raiseFatal e s).err = e.code := rfl
@[simp] theorem raiseFatal_tlen (s : State) (e : ErrorName) : (raiseFatal e s).tlen = s.tlen := rfl
@[simp] theorem raiseFatal_text (s : State) (e : ErrorName) : (raiseFatal e s).text = s.text := rfl
@[simp] theorem raiseFatal_inFlight (s : State) (e : ErrorName) : (raiseFatal e s).inFlight = none := rfl
@[simp] theorem raiseFatal_pending (s : State) (e : ErrorName) : (raiseFatal e s).pending = s.pending := rfl
@[simp] theorem raiseFatal_readLog (s : State) (e : ErrorName) : (raiseFatal e s).readLog = s.readLog := rfl
@[simp] theorem raiseFatal_resets (s : State) (e : ErrorName) : (raiseFatal e s).resets = s.resets := rfl
@[simp] theorem raiseFatal_draws (s : State) (e : ErrorName) : (raiseFatal e s).draws = s.draws := rfl

/-! ### After `dropWrite` -/

@[simp] theorem dropWrite_regs (s : State) : (dropWrite s).regs = s.regs := rfl
@[simp] theorem dropWrite_cf (s : State) : (dropWrite s).cf = s.cf := rfl
@[simp] theorem dropWrite_fatal (s : State) : (dropWrite s).fatal = s.fatal := rfl
@[simp] theorem dropWrite_haz (s : State) : (dropWrite s).haz = true := rfl
@[simp] theorem dropWrite_err (s : State) : (dropWrite s).err = s.err := rfl
@[simp] theorem dropWrite_tlen (s : State) : (dropWrite s).tlen = s.tlen := rfl
@[simp] theorem dropWrite_text (s : State) : (dropWrite s).text = s.text := rfl
@[simp] theorem dropWrite_inFlight (s : State) : (dropWrite s).inFlight = s.inFlight := rfl
@[simp] theorem dropWrite_pending (s : State) : (dropWrite s).pending = s.pending := rfl
@[simp] theorem dropWrite_readLog (s : State) : (dropWrite s).readLog = s.readLog := rfl
@[simp] theorem dropWrite_resets (s : State) : (dropWrite s).resets = s.resets := rfl
@[simp] theorem dropWrite_draws (s : State) : (dropWrite s).draws = s.draws := rfl

/-! ### After `softReset` -/

@[simp] theorem softReset_regs (s : State) : (softReset s).regs = s.regs := rfl
@[simp] theorem softReset_cf (s : State) : (softReset s).cf = false := rfl
@[simp] theorem softReset_fatal (s : State) : (softReset s).fatal = false := rfl
@[simp] theorem softReset_haz (s : State) : (softReset s).haz = false := rfl
@[simp] theorem softReset_err (s : State) : (softReset s).err = 0 := rfl
@[simp] theorem softReset_tlen (s : State) : (softReset s).tlen = 0 := rfl
@[simp] theorem softReset_text (s : State) : (softReset s).text = s.text := rfl
@[simp] theorem softReset_inFlight (s : State) : (softReset s).inFlight = none := rfl
@[simp] theorem softReset_pending (s : State) : (softReset s).pending = s.pending := rfl
@[simp] theorem softReset_readLog (s : State) : (softReset s).readLog = s.readLog := rfl
@[simp] theorem softReset_resets (s : State) : (softReset s).resets = s.resets := rfl
@[simp] theorem softReset_draws (s : State) : (softReset s).draws = s.draws := rfl

/-! ### After `clearHaz` -/

@[simp] theorem clearHaz_regs (s : State) : (clearHaz s).regs = s.regs := rfl
@[simp] theorem clearHaz_cf (s : State) : (clearHaz s).cf = s.cf := rfl
@[simp] theorem clearHaz_fatal (s : State) : (clearHaz s).fatal = s.fatal := rfl
@[simp] theorem clearHaz_haz (s : State) : (clearHaz s).haz = false := rfl
@[simp] theorem clearHaz_err (s : State) : (clearHaz s).err = s.err := rfl
@[simp] theorem clearHaz_tlen (s : State) : (clearHaz s).tlen = s.tlen := rfl
@[simp] theorem clearHaz_text (s : State) : (clearHaz s).text = s.text := rfl
@[simp] theorem clearHaz_inFlight (s : State) : (clearHaz s).inFlight = s.inFlight := rfl
@[simp] theorem clearHaz_pending (s : State) : (clearHaz s).pending = s.pending := rfl
@[simp] theorem clearHaz_readLog (s : State) : (clearHaz s).readLog = s.readLog := rfl
@[simp] theorem clearHaz_resets (s : State) : (clearHaz s).resets = s.resets := rfl
@[simp] theorem clearHaz_draws (s : State) : (clearHaz s).draws = s.draws := rfl

/-! ### After `hardReset` -/

@[simp] theorem hardReset_regs (s : State) : (hardReset s).regs = drawnRegs (s.resets + 1) := rfl
@[simp] theorem hardReset_cf (s : State) : (hardReset s).cf = false := rfl
@[simp] theorem hardReset_fatal (s : State) : (hardReset s).fatal = false := rfl
@[simp] theorem hardReset_haz (s : State) : (hardReset s).haz = false := rfl
@[simp] theorem hardReset_err (s : State) : (hardReset s).err = 0 := rfl
@[simp] theorem hardReset_tlen (s : State) : (hardReset s).tlen = 0 := rfl
@[simp] theorem hardReset_text (s : State) : (hardReset s).text = [] := rfl
@[simp] theorem hardReset_inFlight (s : State) : (hardReset s).inFlight = none := rfl
@[simp] theorem hardReset_pending (s : State) : (hardReset s).pending = s.pending := rfl
@[simp] theorem hardReset_readLog (s : State) : (hardReset s).readLog = s.readLog := rfl
@[simp] theorem hardReset_resets (s : State) : (hardReset s).resets = s.resets + 1 := rfl
@[simp] theorem hardReset_draws (s : State) : (hardReset s).draws = s.draws := rfl

/-! ### After `returnWord` -/

@[simp] theorem returnWord_regs (s : State) (w : Limb) : (returnWord w s).regs = s.regs := rfl
@[simp] theorem returnWord_cf (s : State) (w : Limb) : (returnWord w s).cf = s.cf := rfl
@[simp] theorem returnWord_fatal (s : State) (w : Limb) : (returnWord w s).fatal = s.fatal := rfl
@[simp] theorem returnWord_haz (s : State) (w : Limb) : (returnWord w s).haz = s.haz := rfl
@[simp] theorem returnWord_err (s : State) (w : Limb) : (returnWord w s).err = s.err := rfl
@[simp] theorem returnWord_tlen (s : State) (w : Limb) : (returnWord w s).tlen = s.tlen := rfl
@[simp] theorem returnWord_text (s : State) (w : Limb) : (returnWord w s).text = s.text := rfl
@[simp] theorem returnWord_inFlight (s : State) (w : Limb) : (returnWord w s).inFlight = s.inFlight := rfl
@[simp] theorem returnWord_pending (s : State) (w : Limb) : (returnWord w s).pending = s.pending := rfl
@[simp] theorem returnWord_readLog (s : State) (w : Limb) : (returnWord w s).readLog = w :: s.readLog := rfl
@[simp] theorem returnWord_resets (s : State) (w : Limb) : (returnWord w s).resets = s.resets := rfl
@[simp] theorem returnWord_draws (s : State) (w : Limb) : (returnWord w s).draws = s.draws := rfl

/-! ### After `returnDraw` -/

@[simp] theorem returnDraw_regs (s : State) : (returnDraw s).regs = s.regs := rfl
@[simp] theorem returnDraw_cf (s : State) : (returnDraw s).cf = s.cf := rfl
@[simp] theorem returnDraw_fatal (s : State) : (returnDraw s).fatal = s.fatal := rfl
@[simp] theorem returnDraw_haz (s : State) : (returnDraw s).haz = s.haz := rfl
@[simp] theorem returnDraw_err (s : State) : (returnDraw s).err = s.err := rfl
@[simp] theorem returnDraw_tlen (s : State) : (returnDraw s).tlen = s.tlen := rfl
@[simp] theorem returnDraw_text (s : State) : (returnDraw s).text = s.text := rfl
@[simp] theorem returnDraw_inFlight (s : State) : (returnDraw s).inFlight = s.inFlight := rfl
@[simp] theorem returnDraw_pending (s : State) : (returnDraw s).pending = s.pending := rfl
@[simp] theorem returnDraw_readLog (s : State) : (returnDraw s).readLog = Config.busyReadDraw s.draws :: s.readLog := rfl
@[simp] theorem returnDraw_resets (s : State) : (returnDraw s).resets = s.resets := rfl
@[simp] theorem returnDraw_draws (s : State) : (returnDraw s).draws = s.draws + 1 := rfl

/-! ### After `acceptCommand` -/

@[simp] theorem acceptCommand_regs (s : State) (w : Limb) : (acceptCommand w s).regs = s.regs := rfl
@[simp] theorem acceptCommand_cf (s : State) (w : Limb) : (acceptCommand w s).cf = s.cf := rfl
@[simp] theorem acceptCommand_fatal (s : State) (w : Limb) : (acceptCommand w s).fatal = s.fatal := rfl
@[simp] theorem acceptCommand_haz (s : State) (w : Limb) : (acceptCommand w s).haz = s.haz := rfl
@[simp] theorem acceptCommand_err (s : State) (w : Limb) : (acceptCommand w s).err = s.err := rfl
@[simp] theorem acceptCommand_tlen (s : State) (w : Limb) : (acceptCommand w s).tlen = s.tlen := rfl
@[simp] theorem acceptCommand_text (s : State) (w : Limb) : (acceptCommand w s).text = s.text := rfl
@[simp] theorem acceptCommand_inFlight (s : State) (w : Limb) : (acceptCommand w s).inFlight = some ⟨w.extractLsb' 0 32, w.extractLsb' 32 32 != 0, latencyOf (w.extractLsb' 0 32) s⟩ := rfl
@[simp] theorem acceptCommand_pending (s : State) (w : Limb) : (acceptCommand w s).pending = s.pending := rfl
@[simp] theorem acceptCommand_readLog (s : State) (w : Limb) : (acceptCommand w s).readLog = s.readLog := rfl
@[simp] theorem acceptCommand_resets (s : State) (w : Limb) : (acceptCommand w s).resets = s.resets := rfl
@[simp] theorem acceptCommand_draws (s : State) (w : Limb) : (acceptCommand w s).draws = s.draws := rfl

end Sys2Proof.Machine
end

