-- ==== Sys2Proof/Laws/Ops.lean ====
section
/-! SUPPORT. What the shared operations over registers and text do, and what they leave alone. -/

namespace Sys2Proof.Machine

/-! ### Registers -/

/-- A register write is seen in its own register and nowhere else. -/
theorem readReg_writeReg (s : State) (n m : RegNum) (v : Magnitude) :
    readReg (writeReg n v s) m = if n = m then v else readReg s m := by
  simp only [readReg, writeReg_regs, Fin.getElem_fin, Vector.getElem_set, Fin.ext_iff]

@[simp] theorem readReg_writeReg_self (s : State) (n : RegNum) (v : Magnitude) : readReg (writeReg n v s) n = v := by
  simp [readReg_writeReg]

theorem readReg_writeReg_ne (s : State) {n m : RegNum} (h : n ≠ m) (v : Magnitude) :
    readReg (writeReg n v s) m = readReg s m := by simp [readReg_writeReg, h]

/-- Reading a register depends on the register file only. -/
theorem readReg_congr {s t : State} (h : t.regs = s.regs) (n : RegNum) : readReg t n = readReg s n := by
  simp [readReg, h]

@[simp] theorem readReg_writeCf (s : State) (b : Bool) (n : RegNum) : readReg (writeCf b s) n = readReg s n := rfl
@[simp] theorem readReg_writeTlen (s : State) (k : BitVec 8) (n : RegNum) :
    readReg (writeTlen k s) n = readReg s n := rfl
@[simp] theorem readReg_complete (s : State) (n : RegNum) : readReg (complete s) n = readReg s n := rfl
@[simp] theorem readReg_raiseRecoverable (s : State) (e : ErrorName) (n : RegNum) :
    readReg (raiseRecoverable e s) n = readReg s n := rfl
@[simp] theorem readReg_raiseFatal (s : State) (e : ErrorName) (n : RegNum) :
    readReg (raiseFatal e s) n = readReg s n := rfl

/-! ### Text -/

/-- Reading a byte of T depends on the cells and the last hard reset only. -/
theorem readText_congr {s t : State} (h : t.text = s.text) (hr : t.resets = s.resets) (i : Nat) :
    readText t i = readText s i := by
  simp [readText, unlistedByte, h, hr]

@[simp] theorem readText_writeReg (s : State) (n : RegNum) (v : Magnitude) (i : Nat) :
    readText (writeReg n v s) i = readText s i := rfl
@[simp] theorem readText_writeCf (s : State) (b : Bool) (i : Nat) : readText (writeCf b s) i = readText s i := rfl
@[simp] theorem readText_writeTlen (s : State) (k : BitVec 8) (i : Nat) :
    readText (writeTlen k s) i = readText s i := rfl
@[simp] theorem readText_complete (s : State) (i : Nat) : readText (complete s) i = readText s i := rfl
@[simp] theorem readText_raiseRecoverable (s : State) (e : ErrorName) (i : Nat) :
    readText (raiseRecoverable e s) i = readText s i := rfl
@[simp] theorem readText_raiseFatal (s : State) (e : ErrorName) (i : Nat) :
    readText (raiseFatal e s) i = readText s i := rfl

/-- All that a text write can do: the cells change, nothing else. -/
theorem writeText_eq (s : State) (i : Nat) (c : Byte) :
    writeText i c s = { s with text := (writeText i c s).text } := by
  unfold writeText; split <;> rfl

/-- All that several text writes can do: the cells change, nothing else. -/
theorem writeTexts_eq (cs : List Byte) (i : Nat) (s : State) :
    writeTexts i cs s = { s with text := (writeTexts i cs s).text } := by
  induction cs generalizing i s with
  | nil => rfl
  | cons c cs ih => rw [writeTexts, ih, writeText_eq]

/-- A text write is seen at its own index, if there is such a byte, and nowhere else. -/
theorem readText_writeText (s : State) (i j : Nat) (c : Byte) :
    readText (writeText i c s) j = if i = j ∧ i < 256 then c else readText s j := by
  unfold writeText
  split
  · next h =>
    rcases eq_or_ne i j with rfl | hij
    · simp [readText, unlistedByte, lookup_store, h]
    · simp [readText, unlistedByte, lookup_store, hij]
  · next h => simp [h]

/-- Text writes from `i` on are seen at their own indices, as far as there are such bytes, and nowhere else. -/
theorem readText_writeTexts (cs : List Byte) (i : Nat) (s : State) (j : Nat) :
    readText (writeTexts i cs s) j =
      if h : i ≤ j ∧ j - i < cs.length ∧ j < 256 then cs[j - i]'h.2.1 else readText s j := by
  induction cs generalizing i s with
  | nil => simp [writeTexts]
  | cons c cs ih =>
    rw [writeTexts, ih, readText_writeText]
    by_cases h1 : i + 1 ≤ j ∧ j - (i + 1) < cs.length ∧ j < 256
    · have h2 : i ≤ j ∧ j - i < (c :: cs).length ∧ j < 256 := by simp only [List.length_cons]; omega
      have h3 : j - i = (j - (i + 1)) + 1 := by omega
      rw [dif_pos h1, dif_pos h2]
      simp [h3]
    · rw [dif_neg h1]
      by_cases h2 : i = j ∧ i < 256
      · obtain ⟨rfl, h2⟩ := h2
        simp [h2]
      · have h3 : ¬ (i ≤ j ∧ j - i < (c :: cs).length ∧ j < 256) := by simp only [List.length_cons]; omega
        rw [if_neg h2, dif_neg h3]

/-- Text writes keep the canonical form. -/
theorem writeTexts_wf (cs : List Byte) (i : Nat) {s : State} (h : s.text.wf) : (writeTexts i cs s).text.wf := by
  induction cs generalizing i s with
  | nil => exact h
  | cons c cs ih =>
    refine ih (i + 1) ?_
    unfold writeText
    split
    · next hi => exact store_wf h hi c
    · exact h

theorem readReg_writeTexts (cs : List Byte) (i : Nat) (s : State) (n : RegNum) :
    readReg (writeTexts i cs s) n = readReg s n := by rw [writeTexts_eq]; rfl

/-- The text operand depends on TLEN and the bytes of T only. -/
theorem textOperand_congr {s t : State} (h : t.tlen = s.tlen) (ht : ∀ i, readText t i = readText s i) :
    textOperand t = textOperand s := by
  simp [textOperand, h, funext ht]

@[simp] theorem textOperand_length (s : State) : (textOperand s).length = s.tlen.toNat := by simp [textOperand]

end Sys2Proof.Machine
end

