-- ==== Sys2Proof/Laws/Codec.lean ====
section
/-! SUPPORT. The decimal digits of the codec as numbers, the stripping of a text, and the text operand after a text
write. -/

namespace Sys2Proof.Machine

/-! ### Digits -/

theorem isDigit_eq_true_iff (c : Byte) : isDigit c = true ↔ 0x30 ≤ c.toNat ∧ c.toNat ≤ 0x39 := by
  simp [isDigit]

theorem digitByte_toNat {d : Nat} (h : d < 10) : (digitByte d).toNat = 0x30 + d := by
  rw [digitByte, BitVec.toNat_ofNat, Nat.mod_eq_of_lt (by omega)]

theorem digitValue_digitByte {d : Nat} (h : d < 10) : digitValue (digitByte d) = d := by
  rw [digitValue, digitByte_toNat h, Nat.add_sub_cancel_left]

theorem isDigit_digitByte {d : Nat} (h : d < 10) : isDigit (digitByte d) = true := by
  rw [isDigit_eq_true_iff, digitByte_toNat h]
  omega

theorem digitByte_eq_charZero_iff {d : Nat} (h : d < 10) : digitByte d = charZero ↔ d = 0 := by
  refine ⟨fun he => ?_, fun he => by rw [he]; rfl⟩
  have := congrArg BitVec.toNat he
  rw [digitByte_toNat h] at this
  simpa [charZero] using this

/-- A digit is the digit of its value. -/
theorem digitByte_digitValue {c : Byte} (h : isDigit c = true) : digitByte (digitValue c) = c := by
  rw [isDigit_eq_true_iff] at h
  refine BitVec.eq_of_toNat_eq ?_
  rw [digitByte_toNat (by unfold digitValue; omega)]
  unfold digitValue
  omega

/-! ### The value of a digit string -/

theorem decimalValue_concat (s : List Byte) (c : Byte) :
    decimalValue (s ++ [c]) = 10 * decimalValue s + digitValue c := by
  simp [decimalValue, List.foldl_append]

/-- The value of a string, as digits in base 10, least significant first. -/
theorem decimalValue_eq_ofDigits (s : List Byte) : decimalValue s = Nat.ofDigits 10 (s.map digitValue).reverse := by
  induction s using List.reverseRecOn with
  | nil => rfl
  | append_singleton s c ih =>
    rw [decimalValue_concat, ih]
    simp [Nat.ofDigits_cons, add_comm]

theorem decimalValue_append (s t : List Byte) :
    decimalValue (s ++ t) = decimalValue s * 10 ^ t.length + decimalValue t := by
  simp only [decimalValue_eq_ofDigits, List.map_append, List.reverse_append, Nat.ofDigits_append, List.length_reverse,
    List.length_map]
  ring

/-! ### The digits of a value -/

/-- Digit `i` of a value, counted from the least significant. -/
theorem decimalDigits_getElem (fuel v i : Nat) (h : i < (decimalDigits fuel v).length) :
    (decimalDigits fuel v)[i] = digitByte (v / 10 ^ i % 10) := by
  induction fuel generalizing v i with
  | zero => simp [decimalDigits] at h
  | succ fuel ih =>
    by_cases hv : v < 10
    · simp only [decimalDigits, if_pos hv, List.length_singleton, Nat.lt_one_iff] at h ⊢
      subst h
      simp [Nat.mod_eq_of_lt hv]
    · cases i with
      | zero => simp [decimalDigits, hv]
      | succ i =>
        simp only [decimalDigits, if_neg hv, List.length_cons, Nat.add_lt_add_iff_right] at h ⊢
        simp only [List.getElem_cons_succ, ih _ _ h, Nat.div_div_eq_div_mul, pow_succ, Nat.mul_comm]

/-- How many digits a value has. -/
theorem decimalDigits_length {fuel v : Nat} (hf : fuel ≠ 0) (h : v < 10 ^ fuel) :
    1 ≤ (decimalDigits fuel v).length ∧ (decimalDigits fuel v).length ≤ fuel ∧
    v < 10 ^ (decimalDigits fuel v).length ∧
    (1 < (decimalDigits fuel v).length → 10 ^ ((decimalDigits fuel v).length - 1) ≤ v) := by
  induction fuel generalizing v with
  | zero => exact absurd rfl hf
  | succ fuel ih =>
    by_cases hv : v < 10
    · simp [decimalDigits, hv]
    · have h10 : v / 10 < 10 ^ fuel := by rw [Nat.div_lt_iff_lt_mul (by norm_num)]; rwa [pow_succ] at h
      have hf' : fuel ≠ 0 := by rintro rfl; simp at h; omega
      obtain ⟨h1, h2, h3, h4⟩ := ih hf' h10
      simp only [decimalDigits, if_neg hv, List.length_cons]
      refine ⟨by omega, by omega, ?_, fun _ => ?_⟩
      · rw [pow_succ]; omega
      · rcases Nat.lt_or_ge 1 (decimalDigits fuel (v / 10)).length with h5 | h5
        · have h6 := h4 h5
          rw [show (decimalDigits fuel (v / 10)).length + 1 - 1 = (decimalDigits fuel (v / 10)).length - 1 + 1 by omega,
            pow_succ]
          omega
        · rw [show (decimalDigits fuel (v / 10)).length + 1 - 1 = 1 by omega]
          omega

/-- The digits of a value have that value. -/
theorem ofDigits_decimalDigits {fuel v : Nat} (hf : fuel ≠ 0) (h : v < 10 ^ fuel) :
    Nat.ofDigits 10 ((decimalDigits fuel v).map digitValue) = v := by
  induction fuel generalizing v with
  | zero => exact absurd rfl hf
  | succ fuel ih =>
    by_cases hv : v < 10
    · simp [decimalDigits, hv, digitValue_digitByte hv]
    · have h10 : v / 10 < 10 ^ fuel := by rw [Nat.div_lt_iff_lt_mul (by norm_num)]; rwa [pow_succ] at h
      have hf' : fuel ≠ 0 := by rintro rfl; simp at h; omega
      simp only [decimalDigits, if_neg hv, List.map_cons, Nat.ofDigits_cons, ih hf' h10,
        digitValue_digitByte (Nat.mod_lt v (by norm_num : 10 > 0))]
      omega

theorem mem_decimalDigits {fuel v : Nat} {c : Byte} (h : c ∈ decimalDigits fuel v) : isDigit c = true := by
  obtain ⟨i, hi, rfl⟩ := List.mem_iff_getElem.1 h
  rw [decimalDigits_getElem]
  exact isDigit_digitByte (Nat.mod_lt _ (by norm_num))

/-- Every magnitude has at most 78 digits (`00_scope.md` R8). -/
theorem magnitude_lt_pow (v : Magnitude) : v.toNat < 10 ^ maxDigits :=
  v.isLt.trans (by norm_num [maxDigits])

/-! ### Stripping -/

theorem stripZeros_replicate_append (k : Nat) (s : List Byte) :
    stripZeros (List.replicate k charZero ++ s) = stripZeros s := by
  induction k with
  | zero => rfl
  | succ k ih => rw [List.replicate_succ, List.cons_append, stripZeros, List.dropWhile_cons_of_pos (by simp)]; exact ih

theorem stripZeros_of_head {s : List Byte} (h : s.head? ≠ some charZero) : stripZeros s = s := by
  cases s with
  | nil => rfl
  | cons c s => rw [stripZeros, List.dropWhile_cons_of_neg]; simpa using h

theorem stripPlus_of_head {s : List Byte} (h : s.head? ≠ some charPlus) : stripPlus s = s := by
  cases s with
  | nil => rfl
  | cons c s => rw [stripPlus, if_neg]; simpa using h

theorem stripPlus_cons (s : List Byte) : stripPlus (charPlus :: s) = s := by rw [stripPlus, if_pos rfl]

/-! ### The text operand after a write -/

/-- All that a text destination can do: T and TLEN change, nothing else. -/
theorem writeTextOperand_eq (t : List Byte) (s : State) :
    writeTextOperand t s = { s with text := (writeTextOperand t s).text, tlen := BitVec.ofNat 8 t.length } := by
  unfold writeTextOperand
  rw [writeTexts_eq]
  rfl

/-- A text written as a text destination is the next text operand. -/
theorem textOperand_writeTextOperand {t : List Byte} (ht : t.length ≤ 255) (s : State) :
    textOperand (writeTextOperand t s) = t := by
  have hl : (writeTextOperand t s).tlen.toNat = t.length := by
    rw [writeTextOperand, writeTlen_tlen, BitVec.toNat_ofNat]
    omega
  refine List.ext_getElem (by rw [textOperand_length, hl]) fun i h1 h2 => ?_
  rw [textOperand_length, hl] at h1
  simp only [textOperand, List.getElem_map, List.getElem_range, writeTextOperand, readText_writeTlen,
    readText_writeTexts]
  rw [dif_pos ⟨Nat.zero_le _, by omega, by omega⟩]
  rfl

end Sys2Proof.Machine
end

