-- ==== Sys2Proof/Laws/Decode.lean ====
section
/-! SUPPORT. Once what the decoder and the encoder can do: when a word decodes, and each bit of an assembled word. -/

namespace Sys2Proof

theorem ofCode_eq_some_iff (b : BitVec 8) (o : Opcode) : Opcode.ofCode b = some o ↔ o.code = b := by
  constructor
  · intro h; simpa using List.find?_some h
  · rintro rfl; cases o <;> decide

theorem mask_includes_op (o : Opcode) : o.mask.extractLsb' 0 8 = BitVec.allOnes 8 := by cases o <;> decide

theorem pattern_op (o : Opcode) : o.pattern.extractLsb' 0 8 = o.code := by cases o <;> decide

/-- A word that matches a row carries the row's operation code. -/
theorem opField_of_match {w : CommandWord} {o : Opcode} (h : w &&& o.mask = o.pattern) : opField w = o.code := by
  have h2 := congrArg (BitVec.extractLsb' 0 8) h
  rwa [BitVec.extractLsb'_and, mask_includes_op, pattern_op, BitVec.and_allOnes] at h2

@[simp] theorem withFields_opcode (o : Opcode) (w : CommandWord) : (o.withFields w).opcode = o := by
  cases o <;> rfl

/-- All that the decoder can do when it answers a command: the command's row matches, the command is well-formed, and
its registers are the word's fields. -/
theorem decode_eq_ok_iff (w : CommandWord) (i : Instr) : decode w = .ok i ↔
    w &&& i.opcode.mask = i.opcode.pattern ∧ i.wellFormed = true ∧ i.opcode.withFields w = i := by
  unfold decode
  constructor
  · intro h
    split at h
    · cases h
    · next o ho =>
      split at h
      · next hm =>
        split at h
        · next hw => cases h; simp [hm, hw]
        · cases h
      · cases h
  · rintro ⟨hm, hw, hi⟩
    rw [(ofCode_eq_some_iff _ _).2 (opField_of_match hm).symm]
    simp only [hm, if_true, hi, hw]

/-- A word with no matching row, or a DIVMOD with one destination named twice, decodes to no command. -/
theorem decode_eq_error_of {w : CommandWord}
    (h : (∀ o : Opcode, w &&& o.mask ≠ o.pattern) ∨ (opField w = Opcode.divmod.code ∧ rdField w = rd2Field w)) :
    ∃ e, decode w = .error e := by
  rcases hd : decode w with e | i
  · exact ⟨e, rfl⟩
  · obtain ⟨hm, hw, hi⟩ := (decode_eq_ok_iff w i).1 hd
    rcases h with h | ⟨ho, hr⟩
    · exact absurd hm (h _)
    · have hc := (ofCode_eq_some_iff (opField w) i.opcode).2 (opField_of_match hm).symm
      rw [(ofCode_eq_some_iff (opField w) .divmod).2 ho.symm] at hc
      rw [← Option.some.inj hc] at hi
      rw [← hi] at hw
      simp [Opcode.withFields, Instr.wellFormed, hr] at hw

theorem testBit_regNum {n : RegNum} {j : Nat} (h : 4 ≤ j) : n.val.testBit j = false :=
  Nat.testBit_lt_two_pow (n.isLt.trans_le (Nat.pow_le_pow_right (by omega) h : 2 ^ 4 ≤ 2 ^ j))

/-- Each bit of a placed register number. -/
theorem getLsbD_placeReg (n : RegNum) (lo k : Nat) :
    (placeReg n lo).getLsbD k = (decide (k < 32) && decide (lo ≤ k) && n.val.testBit (k - lo)) := by
  rw [placeReg, BitVec.getLsbD_shiftLeft, BitVec.getLsbD_ofNat]
  by_cases h1 : k < 32
  · by_cases h2 : k < lo
    · simp [h1, h2]
    · simp [h1, h2, Nat.not_lt.1 h2, show k - lo < 32 by omega]
  · simp [h1]

/-- Each bit of an assembled word is the bit of the field that holds it. -/
theorem getLsbD_assembleWord (o : Opcode) (rd rs1 rs2 rd2 : RegNum) (k : Nat) (hk : k < 32) :
    (assembleWord o rd rs1 rs2 rd2).getLsbD k =
      if k < 8 then o.code.getLsbD k else if k < 12 then rd.val.testBit (k - 8)
      else if k < 16 then rs1.val.testBit (k - 12) else if k < 20 then rs2.val.testBit (k - 16)
      else if k < 24 then rd2.val.testBit (k - 20) else false := by
  simp only [assembleWord, BitVec.getLsbD_or, getLsbD_placeReg, BitVec.getLsbD_setWidth]
  interval_cases k <;> simp [testBit_regNum]

end Sys2Proof
end

