-- ==== Sys2Proof/Laws/Exec.lean ====
section
/-! SUPPORT. Once what each command can do: it always answers a next state, and which one in each of its cases. -/

namespace Sys2Proof.Machine

theorem exec_div_of_ne_zero {rd rs1 rs2 : RegNum} {s : State} (h : readReg s rs2 ≠ 0) :
    exec (.div rd rs1 rs2) s =
      .next (complete (writeReg rd (quotientOf (readReg s rs1) (readReg s rs2)) s)) := by
  simp only [exec, execDiv, if_neg h]

theorem exec_div_of_eq_zero {rd rs1 rs2 : RegNum} {s : State} (h : readReg s rs2 = 0) :
    exec (.div rd rs1 rs2) s = .next (raiseFatal .divisionByZero s) := by
  simp only [exec, execDiv, if_pos h]

theorem exec_divmod_of_eq {rd rd2 rs1 rs2 : RegNum} {s : State} (h : rd = rd2) :
    exec (.divmod rd rd2 rs1 rs2) s = .next (raiseRecoverable .illegalCommand s) := by
  simp only [exec, execDivmod, if_pos h]

theorem exec_divmod_of_eq_zero {rd rd2 rs1 rs2 : RegNum} {s : State} (hr : rd ≠ rd2) (h : readReg s rs2 = 0) :
    exec (.divmod rd rd2 rs1 rs2) s = .next (raiseFatal .divisionByZero s) := by
  simp only [exec, execDivmod, if_neg hr, if_pos h]

theorem exec_divmod_of_ne_zero {rd rd2 rs1 rs2 : RegNum} {s : State} (hr : rd ≠ rd2) (h : readReg s rs2 ≠ 0) :
    exec (.divmod rd rd2 rs1 rs2) s =
      .next (complete (writeReg rd2 (remainderOf (readReg s rs1) (readReg s rs2))
        (writeReg rd (quotientOf (readReg s rs1) (readReg s rs2)) s))) := by
  simp only [exec, execDivmod, if_neg hr, if_neg h]

theorem exec_parse_of_ok {rd : RegNum} {s : State} {v : Magnitude} (h : parseText (textOperand s) = .ok v) :
    exec (.parse rd) s = .next (complete (writeReg rd v s)) := by
  simp only [exec, execParse, h]

theorem exec_parse_of_error {rd : RegNum} {s : State} {e : ErrorName} (h : parseText (textOperand s) = .error e) :
    exec (.parse rd) s = .next (raiseRecoverable e (writeReg rd 0 s)) := by
  simp only [exec, execParse, h]

/-- PARSE's error is one of its three (`42_codec.md` R141). -/
theorem parseText_error_cases {t : List Byte} {e : ErrorName} (h : parseText t = .error e) :
    e = .emptyInput ∨ e = .badSyntax ∨ e = .range := by
  simp only [parseText] at h
  split_ifs at h <;> cases h <;> simp

/-- All that a command can do: it ends by one of the three endings, on a state in which only its destinations, CF, T and
TLEN may differ. -/
theorem exec_cases (i : Instr) (s : State) :
    ∃ u, (exec i s = .next (complete u) ∨
        (∃ e, e ≠ .noError ∧ e ≠ .divisionByZero ∧ exec i s = .next (raiseRecoverable e u)) ∨
        exec i s = .next (raiseFatal .divisionByZero u)) ∧
      u = { s with regs := u.regs, cf := u.cf, tlen := u.tlen, text := u.text } := by
  cases i with
  | add rd rs1 rs2 => exact ⟨_, .inl rfl, rfl⟩
  | sub rd rs1 rs2 => exact ⟨_, .inl rfl, rfl⟩
  | lt rs1 rs2 => exact ⟨_, .inl rfl, rfl⟩
  | mul rd rs1 rs2 => exact ⟨_, .inl rfl, rfl⟩
  | div rd rs1 rs2 =>
    by_cases h : readReg s rs2 = 0
    · exact ⟨_, .inr (.inr (exec_div_of_eq_zero h)), rfl⟩
    · exact ⟨_, .inl (exec_div_of_ne_zero h), rfl⟩
  | mod rd rs1 rs2 => exact ⟨_, .inl rfl, rfl⟩
  | divmod rd rd2 rs1 rs2 =>
    by_cases hr : rd = rd2
    · exact ⟨_, .inr (.inl ⟨_, by simp, by simp, exec_divmod_of_eq hr⟩), rfl⟩
    · by_cases h : readReg s rs2 = 0
      · exact ⟨_, .inr (.inr (exec_divmod_of_eq_zero hr h)), rfl⟩
      · exact ⟨_, .inl (exec_divmod_of_ne_zero hr h), rfl⟩
  | parse rd =>
    rcases h : parseText (textOperand s) with e | v
    · refine ⟨_, .inr (.inl ⟨e, ?_, ?_, exec_parse_of_error h⟩), rfl⟩ <;>
        rcases parseText_error_cases h with rfl | rfl | rfl <;> simp
    · exact ⟨_, .inl (exec_parse_of_ok h), rfl⟩
  | format rs1 =>
    refine ⟨_, .inl rfl, ?_⟩
    rw [writeTextOperand, writeTexts_eq]
    rfl

theorem writeTexts_inFlight (cs : List Byte) (i : Nat) (s : State) (c : Option InFlight) :
    writeTexts i cs { s with inFlight := c } = { writeTexts i cs s with inFlight := c } := by
  induction cs generalizing i s with
  | nil => rfl
  | cons d cs ih =>
    have h : writeText i d { s with inFlight := c } = { writeText i d s with inFlight := c } := by
      unfold writeText; split <;> rfl
    rw [writeTexts, h, ih]
    rfl

/-- A command's meaning does not read which command is in flight. -/
theorem exec_inFlight (i : Instr) (s : State) (c : Option InFlight) : exec i { s with inFlight := c } = exec i s := by
  cases i with
  | format rs1 =>
    simp only [exec, execFormat, writeTextOperand, writeTexts_inFlight]
    rfl
  | div a b d =>
    have h : ∀ n, readReg { s with inFlight := c } n = readReg s n := fun _ => rfl
    simp only [exec, execDiv, h]
    split <;> rfl
  | divmod a b d e =>
    have h : ∀ n, readReg { s with inFlight := c } n = readReg s n := fun _ => rfl
    simp only [exec, execDivmod, h]
    split_ifs <;> rfl
  | parse a =>
    have h : textOperand { s with inFlight := c } = textOperand s := rfl
    simp only [exec, execParse, h]
    rcases parseText (textOperand s) with e | v <;> rfl
  | add _ _ _ => rfl
  | sub _ _ _ => rfl
  | lt _ _ => rfl
  | mul _ _ _ => rfl
  | mod _ _ _ => rfl

theorem writeTexts_accesses (cs : List Byte) (i : Nat) (s : State) (h : Bool) (p : List HostEvent) (l : List Limb)
    (d : Nat) : writeTexts i cs { s with haz := h, pending := p, readLog := l, draws := d } =
      { writeTexts i cs s with haz := h, pending := p, readLog := l, draws := d } := by
  induction cs generalizing i s with
  | nil => rfl
  | cons c cs ih =>
    have hw : writeText i c { s with haz := h, pending := p, readLog := l, draws := d } =
        { writeText i c s with haz := h, pending := p, readLog := l, draws := d } := by
      unfold writeText; split <;> rfl
    rw [writeTexts, hw, ih]
    rfl

/-- A command's meaning neither reads nor writes HAZ, the queue of events, the words read and the draw counter. -/
theorem exec_accesses {i : Instr} {s t : State} (ht : exec i s = .next t) (h : Bool) (p : List HostEvent)
    (l : List Limb) (d : Nat) : exec i { s with haz := h, pending := p, readLog := l, draws := d } =
      .next { t with haz := h, pending := p, readLog := l, draws := d } := by
  have hr : ∀ n, readReg { s with haz := h, pending := p, readLog := l, draws := d } n = readReg s n := fun _ => rfl
  cases i with
  | format rs1 =>
    cases ht
    simp only [exec, execFormat, hr, writeTextOperand, writeTexts_accesses]
    rfl
  | div a b e =>
    cases ht
    simp only [exec, execDiv, hr]
    split <;> rfl
  | divmod a b e f =>
    cases ht
    simp only [exec, execDivmod, hr]
    split_ifs <;> rfl
  | parse a =>
    have htext : textOperand { s with haz := h, pending := p, readLog := l, draws := d } = textOperand s := rfl
    cases ht
    simp only [exec, execParse, htext]
    rcases parseText (textOperand s) with e | v <;> rfl
  | add _ _ _ => cases ht; rfl
  | sub _ _ _ => cases ht; rfl
  | lt _ _ => cases ht; rfl
  | mul _ _ _ => cases ht; rfl
  | mod _ _ _ => cases ht; rfl

end Sys2Proof.Machine
end

