-- ==== Sys2Proof/Laws/Limbs.lean ====
section
/-! SUPPORT. Limbs of a magnitude and bytes of a word. -/

namespace Sys2Proof.Machine

/-- Each bit of four joined limbs. -/
theorem getLsbD_ofLimbs (l0 l1 l2 l3 : Limb) (k : Nat) : (ofLimbs l0 l1 l2 l3).getLsbD k =
    if k < 64 then l0.getLsbD k else if k < 128 then l1.getLsbD (k - 64)
    else if k < 192 then l2.getLsbD (k - 128) else l3.getLsbD (k - 192) := by
  have h : (ofLimbs l0 l1 l2 l3).getLsbD k = (l3 ++ l2 ++ l1 ++ l0 : BitVec (64 + 64 + 64 + 64)).getLsbD k := rfl
  rw [h, BitVec.getLsbD_append, BitVec.getLsbD_append, BitVec.getLsbD_append, Nat.sub_sub, Nat.sub_sub]
  split_ifs <;> first | omega | rfl

/-- Limb `j` of four joined limbs is the `j`-th of them. -/
theorem limb_ofLimbs (l0 l1 l2 l3 : Limb) (j : Fin 4) : limb (ofLimbs l0 l1 l2 l3) j = ![l0, l1, l2, l3] j := by
  apply BitVec.eq_of_getLsbD_eq
  intro k hk
  rw [limb, BitVec.getLsbD_extractLsb', getLsbD_ofLimbs, decide_eq_true hk, Bool.true_and]
  match j with
  | 0 => rw [if_pos (by simp; omega)]; simp
  | 1 => rw [if_neg (by simp), if_pos (by simp; omega)]; simp
  | 2 => rw [if_neg (by simp; omega), if_neg (by simp), if_pos (by simp; omega)]; simp
  | 3 => rw [if_neg (by simp; omega), if_neg (by simp; omega), if_neg (by simp)]; simp

/-- Each bit of a limb. -/
theorem getLsbD_limb (v : Magnitude) (j : Fin 4) (k : Nat) (hk : k < 64) :
    (limb v j).getLsbD k = v.getLsbD (64 * j.val + k) := by
  rw [limb, BitVec.getLsbD_extractLsb', decide_eq_true hk, Bool.true_and]

/-- A magnitude is its four limbs joined. -/
theorem ofLimbs_limbs (v : Magnitude) : ofLimbs (limb v 0) (limb v 1) (limb v 2) (limb v 3) = v := by
  apply BitVec.eq_of_getLsbD_eq
  intro k hk
  rw [getLsbD_ofLimbs]
  by_cases h0 : k < 64
  · rw [if_pos h0, getLsbD_limb v 0 k h0]; exact congrArg _ (Nat.zero_add k)
  · by_cases h1 : k < 128
    · rw [if_neg h0, if_pos h1, getLsbD_limb v 1 _ (by omega)]
      exact congrArg _ (show 64 * 1 + (k - 64) = k by omega)
    · by_cases h2 : k < 192
      · rw [if_neg h0, if_neg h1, if_pos h2, getLsbD_limb v 2 _ (by omega)]
        exact congrArg _ (show 64 * 2 + (k - 128) = k by omega)
      · rw [if_neg h0, if_neg h1, if_neg h2, getLsbD_limb v 3 _ (by omega)]
        exact congrArg _ (show 64 * 3 + (k - 192) = k by omega)

/-- Limb `i` after limb `j` is replaced. -/
theorem limb_setLimb (v : Magnitude) (i j : Fin 4) (w : Limb) :
    limb (setLimb v j w) i = if i = j then w else limb v i := by
  fin_cases i <;> fin_cases j <;> simp [setLimb, limb_ofLimbs]

/-- Two magnitudes with the same limbs are equal. -/
theorem magnitude_ext {v w : Magnitude} (h : ∀ j, limb v j = limb w j) : v = w := by
  rw [← ofLimbs_limbs v, ← ofLimbs_limbs w, h, h, h, h]

/-- The value of a magnitude from its limbs (`00_scope.md` R12). -/
theorem toNat_eq_limbs (v : Magnitude) :
    v.toNat = (limb v 0).toNat + 2 ^ 64 * (limb v 1).toNat + 2 ^ 128 * (limb v 2).toNat
      + 2 ^ 192 * (limb v 3).toNat := by
  have h := v.isLt
  simp only [limb, BitVec.extractLsb'_toNat, Nat.shiftRight_eq_div_pow]
  simp
  omega

/-- Each bit of eight joined bytes. -/
theorem getLsbD_ofBytes (b0 b1 b2 b3 b4 b5 b6 b7 : Byte) (i j : Nat) (hi : i < 8) (hj : j < 8) :
    (ofBytes b0 b1 b2 b3 b4 b5 b6 b7).getLsbD (8 * i + j) =
      (([b0, b1, b2, b3, b4, b5, b6, b7] : List Byte).getD i 0).getLsbD j := by
  have h : (ofBytes b0 b1 b2 b3 b4 b5 b6 b7).getLsbD (8 * i + j) =
    (b7 ++ b6 ++ b5 ++ b4 ++ b3 ++ b2 ++ b1 ++ b0 : BitVec (8 + 8 + 8 + 8 + 8 + 8 + 8 + 8)).getLsbD (8 * i + j) := rfl
  rw [h]
  simp only [BitVec.getLsbD_append]
  interval_cases i <;> split_ifs <;> first | omega | (simp; try (congr 1; omega))

/-- Byte `i` of eight joined bytes is the `i`-th of them (`20_memory.md` R53). -/
theorem wordByte_ofBytes (b0 b1 b2 b3 b4 b5 b6 b7 : Byte) (i : Nat) (hi : i < 8) :
    wordByte (ofBytes b0 b1 b2 b3 b4 b5 b6 b7) i = ([b0, b1, b2, b3, b4, b5, b6, b7] : List Byte).getD i 0 := by
  apply BitVec.eq_of_getLsbD_eq
  intro j hj
  rw [wordByte, BitVec.getLsbD_extractLsb', getLsbD_ofBytes _ _ _ _ _ _ _ _ i j hi hj]
  simp [hj]

end Sys2Proof.Machine
end

