-- ==== Sys2Proof/Laws/PerInstr.lean ====
section
/-! SUPPORT. A family of lemmas, one for each command: the word of a command lies in the command's own row of the
opcode map, whatever its registers (`30_encoding.md` R82, R88). -/

namespace Sys2Proof.Laws.EncodingRow

/-- The encoding of `i`, masked by its row's mask, is its row's match. -/
def Statement (i : Instr) : Prop := encode i &&& i.opcode.mask = i.opcode.pattern

theorem assembleWord_row {o : Opcode} {rd rs1 rs2 rd2 : RegNum} {mask pattern : CommandWord}
    (h : ∀ k < 32, ((assembleWord o rd rs1 rs2 rd2).getLsbD k && mask.getLsbD k) = pattern.getLsbD k) :
    assembleWord o rd rs1 rs2 rd2 &&& mask = pattern := by
  ext k hk
  simpa [BitVec.getElem_eq_testBit_toNat, BitVec.getLsbD] using h k hk

theorem add (rd rs1 rs2 : RegNum) : Statement (.add rd rs1 rs2) := by
  refine assembleWord_row fun k hk => ?_
  rw [getLsbD_assembleWord _ _ _ _ _ k hk]
  interval_cases k <;> simp [Opcode.mask, Opcode.pattern, Opcode.code, Instr.opcode]

theorem sub (rd rs1 rs2 : RegNum) : Statement (.sub rd rs1 rs2) := by
  refine assembleWord_row fun k hk => ?_
  rw [getLsbD_assembleWord _ _ _ _ _ k hk]
  interval_cases k <;> simp [Opcode.mask, Opcode.pattern, Opcode.code, Instr.opcode]

theorem lt (rs1 rs2 : RegNum) : Statement (.lt rs1 rs2) := by
  refine assembleWord_row fun k hk => ?_
  rw [getLsbD_assembleWord _ _ _ _ _ k hk]
  interval_cases k <;> simp [Opcode.mask, Opcode.pattern, Opcode.code, Instr.opcode]

theorem mul (rd rs1 rs2 : RegNum) : Statement (.mul rd rs1 rs2) := by
  refine assembleWord_row fun k hk => ?_
  rw [getLsbD_assembleWord _ _ _ _ _ k hk]
  interval_cases k <;> simp [Opcode.mask, Opcode.pattern, Opcode.code, Instr.opcode]

theorem div (rd rs1 rs2 : RegNum) : Statement (.div rd rs1 rs2) := by
  refine assembleWord_row fun k hk => ?_
  rw [getLsbD_assembleWord _ _ _ _ _ k hk]
  interval_cases k <;> simp [Opcode.mask, Opcode.pattern, Opcode.code, Instr.opcode]

theorem mod (rd rs1 rs2 : RegNum) : Statement (.mod rd rs1 rs2) := by
  refine assembleWord_row fun k hk => ?_
  rw [getLsbD_assembleWord _ _ _ _ _ k hk]
  interval_cases k <;> simp [Opcode.mask, Opcode.pattern, Opcode.code, Instr.opcode]

theorem divmod (rd rd2 rs1 rs2 : RegNum) : Statement (.divmod rd rd2 rs1 rs2) := by
  refine assembleWord_row fun k hk => ?_
  rw [getLsbD_assembleWord _ _ _ _ _ k hk]
  interval_cases k <;> simp [Opcode.mask, Opcode.pattern, Opcode.code, Instr.opcode]

theorem parse (rd : RegNum) : Statement (.parse rd) := by
  refine assembleWord_row fun k hk => ?_
  rw [getLsbD_assembleWord _ _ _ _ _ k hk]
  interval_cases k <;> simp [Opcode.mask, Opcode.pattern, Opcode.code, Instr.opcode]

theorem format (rs1 : RegNum) : Statement (.format rs1) := by
  refine assembleWord_row fun k hk => ?_
  rw [getLsbD_assembleWord _ _ _ _ _ k hk]
  interval_cases k <;> simp [Opcode.mask, Opcode.pattern, Opcode.code, Instr.opcode]

end Sys2Proof.Laws.EncodingRow
end

