-- ==== Sys2Proof/Laws/Window.lean ====
section
/-! SUPPORT. The window map by numbers, and once what a host read and a host write can do. -/

namespace Sys2Proof.Machine

theorem wordIndex_eq (off : Offset) : wordIndex off = off.toNat / 8 := by
  have h := off.isLt
  rw [wordIndex, BitVec.extractLsb'_toNat, Nat.shiftRight_eq_div_pow]
  exact Nat.mod_eq_of_lt (by omega)

theorem accessOk_iff (off : Offset) (width : Nat) : accessOk off width = true ↔ width = 8 ∧ off.toNat % 8 = 0 := by
  have h : (off.extractLsb' 0 3 = 0) ↔ off.toNat % 8 = 0 := by
    rw [← BitVec.toNat_inj, BitVec.extractLsb'_toNat]
    simp
  simp only [accessOk, Bool.and_eq_true, beq_iff_eq, h]

theorem windowReg_textOffset (k : Fin 32) : windowReg (textOffset k) = .text k := by
  revert k; decide

theorem windowReg_limbOffset (n : Fin 16) (j : Fin 4) : windowReg (limbOffset n j) = .limb n j := by
  revert n j; decide

theorem accessOk_textOffset (k : Fin 32) : accessOk (textOffset k) 8 = true := by
  revert k; decide

theorem accessOk_limbOffset (n : Fin 16) (j : Fin 4) : accessOk (limbOffset n j) 8 = true := by
  revert n j; decide

/-- The guarded places are TLEN, T and V (`20_memory.md` R51, R63). -/
theorem windowReg_guarded_iff (off : Offset) : (windowReg off).guarded = true ↔
    (0x020 ≤ off.toNat ∧ off.toNat < 0x028) ∨ (0x100 ≤ off.toNat ∧ off.toNat < 0x400) := by
  simp only [windowReg, wordIndex_eq]
  split_ifs <;> simp only [WindowReg.guarded] <;> constructor <;> intro h <;> first | omega | simp at h | trivial

theorem windowReg_eq_cmd_iff (off : Offset) : windowReg off = .cmd ↔ 0x018 ≤ off.toNat ∧ off.toNat < 0x020 := by
  simp only [windowReg, wordIndex_eq]
  split_ifs <;> constructor <;> intro h <;> first | omega | simp at h | trivial

theorem windowReg_eq_ctrl_iff (off : Offset) : windowReg off = .ctrl ↔ 0x010 ≤ off.toNat ∧ off.toNat < 0x018 := by
  simp only [windowReg, wordIndex_eq]
  split_ifs <;> constructor <;> intro h <;> first | omega | simp at h | trivial

theorem windowReg_eq_reserved_iff (off : Offset) : windowReg off = .reserved ↔
    (0x028 ≤ off.toNat ∧ off.toNat < 0x100) ∨ 0x400 ≤ off.toNat := by
  simp only [windowReg, wordIndex_eq]
  split_ifs <;> constructor <;> intro h <;> first | omega | simp at h | trivial

/-- All that a host read can do: a word or a draw is returned. -/
theorem hostRead_cases (off : Offset) (s : State) :
    (hostRead off s = returnDraw s ∧ s.busy = true ∧ (windowReg off).guarded = true) ∨
    (hostRead off s = returnWord (windowValue s (windowReg off)) s ∧
      ¬ (s.busy = true ∧ (windowReg off).guarded = true)) := by
  simp only [hostRead, Bool.and_eq_true]
  split_ifs with h
  · exact .inl ⟨rfl, h⟩
  · exact .inr ⟨rfl, h⟩

/-- All that a host write can do: nothing, a reset or CLRHAZ, a drop, an accepted command, or a stored value in an idle
core. -/
theorem hostWrite_cases (off : Offset) (w : Limb) (s : State) :
    (hostWrite off w s = s ∧ (windowReg off).guarded = false ∧ windowReg off ≠ .cmd) ∨
    (windowReg off = .ctrl ∧ w.getLsbD 0 = true ∧ hostWrite off w s = softReset s) ∨
    (windowReg off = .ctrl ∧ w.getLsbD 0 = false ∧ w.getLsbD 1 = true ∧ hostWrite off w s = clearHaz s) ∨
    (hostWrite off w s = dropWrite s ∧ ((windowReg off = .cmd ∧ (s.busy = true ∨ s.fatal = true)) ∨
      ((windowReg off).guarded = true ∧ s.busy = true))) ∨
    (windowReg off = .cmd ∧ s.busy = false ∧ s.fatal = false ∧ hostWrite off w s = acceptCommand w s) ∨
    (s.busy = false ∧ (windowReg off).guarded = true ∧
      (hostWrite off w s = writeTlen (w.setWidth 8) s ∨
        (∃ k, windowReg off = .text k ∧ hostWrite off w s = writeTextWord k w s) ∨
        ∃ n j, windowReg off = .limb n j ∧ hostWrite off w s = writeLimb n j w s)) := by
  rcases hr : windowReg off with _ | _ | _ | _ | _ | k | ⟨n, j⟩ | _ <;>
    simp only [hostWrite, hr, WindowReg.guarded, whenIdle, writeCtrl, writeCmd]
  · simp
  · simp
  · cases w.getLsbD 0 <;> cases w.getLsbD 1 <;> simp
  · cases s.busy <;> cases s.fatal <;> simp
  · cases s.busy <;> simp
  · cases s.busy <;> simp
  · cases s.busy <;> simp
  · simp

theorem writeTextWord_eq (k : Fin 32) (w : Limb) (s : State) :
    writeTextWord k w s = { s with text := (writeTextWord k w s).text } := writeTexts_eq _ _ _

theorem writeLimb_eq (n : Fin 16) (j : Fin 4) (w : Limb) (s : State) :
    writeLimb n j w s = { s with regs := (writeLimb n j w s).regs } := rfl

end Sys2Proof.Machine
end

