-- ==== Sys2Proof/Laws/Step.lean ====
section
/-! SUPPORT. Once what the completion of a command, a core cycle, an event and a step can do. -/

namespace Sys2Proof.Machine

theorem completeCommand_of_illegal {c : InFlight} {s : State}
    (h : c.illegalHi = true ∨ ∃ e, decode c.cur = .error e) :
    completeCommand c s = .next (raiseRecoverable .illegalCommand s) := by
  unfold completeCommand
  split_ifs with hh
  · rfl
  · obtain ⟨e, he⟩ := h.resolve_left hh
    rw [he]

theorem completeCommand_of_decode {c : InFlight} {s : State} {i : Instr} (hh : c.illegalHi = false)
    (h : decode c.cur = .ok i) : completeCommand c s = exec i s := by
  simp only [completeCommand, hh, h, Bool.false_eq_true, if_false]

/-- All that the completion of a command can do: one of the three endings, on a state in which only registers, CF, T
and TLEN may differ. -/
theorem completeCommand_cases (c : InFlight) (s : State) :
    ∃ u, (completeCommand c s = .next (complete u) ∨
        (∃ e, e ≠ .noError ∧ e ≠ .divisionByZero ∧ completeCommand c s = .next (raiseRecoverable e u)) ∨
        completeCommand c s = .next (raiseFatal .divisionByZero u)) ∧
      u = { s with regs := u.regs, cf := u.cf, tlen := u.tlen, text := u.text } := by
  by_cases hi : c.illegalHi = true
  · exact ⟨s, .inr (.inl ⟨_, by simp, by simp, completeCommand_of_illegal (.inl hi)⟩), rfl⟩
  · rcases hd : decode c.cur with e | i
    · exact ⟨s, .inr (.inl ⟨_, by simp, by simp, completeCommand_of_illegal (.inr ⟨e, hd⟩)⟩), rfl⟩
    · rw [completeCommand_of_decode (by simpa using hi) hd]
      exact exec_cases i s

/-- All that a core cycle can do: nothing, one count down, or the completion. -/
theorem coreCycle_cases (s : State) :
    (s.inFlight = none ∧ coreCycle s = .next s) ∨
    (∃ c, s.inFlight = some c ∧ 1 < c.remaining ∧
      coreCycle s = .next { s with inFlight := some { c with remaining := c.remaining - 1 } }) ∨
    (∃ c, s.inFlight = some c ∧ c.remaining ≤ 1 ∧ coreCycle s = completeCommand c s) := by
  unfold coreCycle
  rcases h : s.inFlight with _ | c
  · exact .inl ⟨rfl, rfl⟩
  · by_cases hc : c.remaining ≤ 1
    · exact .inr (.inr ⟨c, rfl, hc, by simp [hc]⟩)
    · exact .inr (.inl ⟨c, rfl, by omega, by simp [hc]⟩)

theorem event_read {off : Offset} {width : Nat} {s : State} (h : accessOk off width = true) :
    event (.read off width) s = .next (hostRead off s) := by simp only [event, h, if_true]

theorem event_write {off : Offset} {width : Nat} {w : Limb} {s : State} (h : accessOk off width = true) :
    event (.write off width w) s = .next (hostWrite off w s) := by simp only [event, h, if_true]

/-- All that an event can do: a read or a write the window takes, a core cycle, a hard reset, or the fault of an access
it does not take. -/
theorem event_cases (e : HostEvent) (s : State) :
    (∃ off, e = .read off 8 ∧ off.toNat % 8 = 0 ∧ event e s = .next (hostRead off s)) ∨
    (∃ off w, e = .write off 8 w ∧ off.toNat % 8 = 0 ∧ event e s = .next (hostWrite off w s)) ∨
    (e = .cycle ∧ event e s = coreCycle s) ∨
    (e = .hardReset ∧ event e s = .next (hardReset s)) ∨
    (∃ off width, ¬ (width = 8 ∧ off.toNat % 8 = 0) ∧ (e = .read off width ∨ ∃ w, e = .write off width w) ∧
      event e s = .fault (.busError off width)) := by
  cases e with
  | read off width =>
    by_cases h : accessOk off width = true
    · obtain ⟨rfl, h8⟩ := (accessOk_iff off width).1 h
      exact .inl ⟨off, rfl, h8, event_read h⟩
    · exact .inr (.inr (.inr (.inr ⟨off, width, fun h8 => h ((accessOk_iff off width).2 h8), .inl rfl, by
        simp [event, h]⟩)))
  | write off width w =>
    by_cases h : accessOk off width = true
    · obtain ⟨rfl, h8⟩ := (accessOk_iff off width).1 h
      exact .inr (.inl ⟨off, w, rfl, h8, event_write h⟩)
    · exact .inr (.inr (.inr (.inr ⟨off, width, fun h8 => h ((accessOk_iff off width).2 h8), .inr ⟨w, rfl⟩, by
        simp [event, h]⟩)))
  | cycle => exact .inr (.inr (.inl ⟨rfl, rfl⟩))
  | hardReset => exact .inr (.inr (.inr (.inl ⟨rfl, rfl⟩)))

theorem step_of_nil {s : State} (h : s.pending = []) : step s = coreCycle s := by
  simp only [step, nextEvent, h]

theorem step_of_cons {s : State} {e : HostEvent} {rest : List HostEvent} (h : s.pending = e :: rest) :
    step s = event e { s with pending := rest } := by
  simp only [step, nextEvent, h]

end Sys2Proof.Machine
end

