-- ==== Sys2Proof/Laws/Run.lean ====
section
/-! SUPPORT. Runs of several steps. -/

namespace Sys2Proof.Machine

/-- A host's run of one more step is a step and then the run, for any machine. -/
theorem hostRun_succ (M : Host.Core) (s : M.State) (k : Nat) : M.run (k + 1) s =
    match M.step s with
    | .next t => M.run k t
    | .fault r => .fault r
    | .refused r => .refused r := by
  rcases h : M.step s with t | r | r <;> simp only [Host.Core.run, h]

/-- `run` is the host's run of this machine. -/
theorem run_eq_core_run (k : Nat) (s : State) : Host.Core.run Sys2Proof.core k s = run k s := by
  have key : ∀ {M : Host.Core} (k : Nat) (s : M.State) (o : Host.Outcome M.State M.Fault M.Refusal), M.step s = o →
      M.run (k + 1) s = match o with
        | .next t => M.run k t
        | .fault r => .fault r
        | .refused r => .refused r := by
    rintro M k s o rfl
    exact hostRun_succ M s k
  induction k generalizing s with
  | zero => rfl
  | succ k ih =>
    refine (key (M := Sys2Proof.core) k s (step s) rfl).trans ?_
    rw [run]
    cases step s with
    | next t => exact ih t
    | fault r => rfl
    | refused r => rfl

/-- A run goes on from the step's next state. -/
theorem run_succ_of_step {s t : State} (h : step s = .next t) (k : Nat) : run (k + 1) s = run k t := by
  simp only [run, h]

/-- A run of one step is a step. -/
theorem run_one (s : State) : run 1 s = step s := by
  unfold run
  rcases step s with t | r | r <;> rfl

/-- A run of `j + k` steps is a run of `j` and then one of `k`. -/
theorem run_add {s t : State} {j : Nat} (h : run j s = .next t) (k : Nat) : run (j + k) s = run k t := by
  induction j generalizing s with
  | zero => cases h; rw [Nat.zero_add]
  | succ j ih =>
    rw [Nat.succ_add]
    rcases hs : step s with u | r | r <;> simp only [run, hs] at h
    · rw [run_succ_of_step hs]; exact ih h
    · cases h
    · cases h

/-- A run of `k + 1` steps is a run of `k` and then a step. -/
theorem run_succ_of_run {s t : State} {k : Nat} (h : run k s = .next t) : run (k + 1) s = step t := by
  rw [run_add h 1, run_one]

/-- `SameButAccesses`, field by field. -/
theorem sameButAccesses_iff (s t : State) : SameButAccesses s t ↔ t.regs = s.regs ∧ t.cf = s.cf ∧ t.fatal = s.fatal ∧
    t.err = s.err ∧ t.tlen = s.tlen ∧ t.text = s.text ∧ t.inFlight = s.inFlight ∧ t.resets = s.resets := by
  cases t
  simp [SameButAccesses]

theorem SameButAccesses.refl (s : State) : SameButAccesses s s := rfl

theorem SameButAccesses.trans {s t u : State} (h1 : SameButAccesses s t) (h2 : SameButAccesses t u) :
    SameButAccesses s u := by
  simp_all [sameButAccesses_iff]

/-- All that an access which a command in flight outlives can do to a busy core: HAZ, the words read and the draw counter
may change. -/
theorem event_of_busy {e : HostEvent} {s : State} (hb : s.busy = true) (hk : e.KeepsCommand) (hc : e ≠ .cycle) :
    ∃ t, event e s = .next t ∧ SameButAccesses s t ∧ t.pending = s.pending := by
  cases e with
  | read off width =>
    refine ⟨_, event_read ((accessOk_iff _ _).2 hk), ?_⟩
    rcases hostRead_cases off s with ⟨h, -, -⟩ | ⟨h, -⟩ <;> rw [h] <;> exact ⟨rfl, rfl⟩
  | write off width w =>
    refine ⟨_, event_write ((accessOk_iff _ _).2 ⟨hk.1, hk.2.1⟩), ?_⟩
    rcases hostWrite_cases off w s with ⟨h, -⟩ | ⟨hr, hw, -⟩ | ⟨-, -, -, h⟩ | ⟨h, -⟩ | ⟨-, hi, -⟩ | ⟨hi, -⟩
    · rw [h]; exact ⟨rfl, rfl⟩
    · have hoff : off.toNat = 0x010 := by
        have h1 := (windowReg_eq_ctrl_iff off).1 hr
        have h2 := hk.2.1
        omega
      rw [hk.2.2 hoff] at hw
      cases hw
    · rw [h]; exact ⟨rfl, rfl⟩
    · rw [h]; exact ⟨rfl, rfl⟩
    · rw [hb] at hi; cases hi
    · rw [hb] at hi; cases hi
  | cycle => exact absurd rfl hc
  | hardReset => exact hk.elim

end Sys2Proof.Machine
end

