-- ==== Sys2Proof/Machine/Assembler.lean ====
section
/-! DEFINITION. The assembler syntax of `30_encoding.md` R88. No step uses it. -/

namespace Sys2Proof.Machine

/-- `V0` to `V15`, in the canonical upper case. -/
def regName (n : RegNum) : List Char := 'V' :: Nat.toDigits 10 n.val

/-- Operands separated by commas. -/
def commaSeparated : List (List Char) → List Char
  | [] => []
  | [t] => t
  | t :: ts => t ++ [',', ' '] ++ commaSeparated ts

/-- The register operands in the order of the syntax: destinations first, then sources. -/
def syntaxOperands : Instr → List RegNum
  | .add rd rs1 rs2 => [rd, rs1, rs2]
  | .sub rd rs1 rs2 => [rd, rs1, rs2]
  | .lt rs1 rs2 => [rs1, rs2]
  | .mul rd rs1 rs2 => [rd, rs1, rs2]
  | .div rd rs1 rs2 => [rd, rs1, rs2]
  | .mod rd rs1 rs2 => [rd, rs1, rs2]
  | .divmod rd rd2 rs1 rs2 => [rd, rd2, rs1, rs2]
  | .parse rd => [rd]
  | .format rs1 => [rs1]

/-- The canonical spelling of a command. -/
def syntaxOf (i : Instr) : List Char :=
  i.opcode.mnemonic.toList ++ ' ' :: commaSeparated ((syntaxOperands i).map regName)

/-- The parts of a line between commas. -/
def splitCommas : List Char → List (List Char)
  | [] => [[]]
  | c :: cs =>
    match splitCommas cs with
    | [] => [[c]]
    | t :: ts => if c = ',' then [] :: t :: ts else (c :: t) :: ts

/-- A part without the spaces around it. -/
def trimSpaces (t : List Char) : List Char :=
  ((t.dropWhile (· == ' ')).reverse.dropWhile (· == ' ')).reverse

/-- The register a name stands for; names are not case-sensitive. -/
def regOfName (t : List Char) : Option RegNum :=
  (List.finRange 16).find? (fun n => regName n == t.map Char.toUpper)

/-- The command of a mnemonic and its operands, if their number fits. -/
def instrOf : Opcode → List RegNum → Option Instr
  | .add, [rd, rs1, rs2] => some (.add rd rs1 rs2)
  | .sub, [rd, rs1, rs2] => some (.sub rd rs1 rs2)
  | .lt, [rs1, rs2] => some (.lt rs1 rs2)
  | .mul, [rd, rs1, rs2] => some (.mul rd rs1 rs2)
  | .div, [rd, rs1, rs2] => some (.div rd rs1 rs2)
  | .mod, [rd, rs1, rs2] => some (.mod rd rs1 rs2)
  | .divmod, [rd, rd2, rs1, rs2] => some (.divmod rd rd2 rs1 rs2)
  | .parse, [rd] => some (.parse rd)
  | .format, [rs1] => some (.format rs1)
  | _, _ => none

/-- The command a line of the assembler syntax stands for; mnemonics are not case-sensitive. DESIGN CHOICE (log entry
20): spaces may surround each operand. -/
def assemble (line : List Char) : Option Instr :=
  let t := trimSpaces line
  let mnemonic := (t.takeWhile (· != ' ')).map Char.toUpper
  match Opcode.all.find? (fun o => o.mnemonic.toList == mnemonic),
      ((splitCommas (t.dropWhile (· != ' '))).map trimSpaces).mapM regOfName with
  | some o, some ns => instrOf o ns
  | _, _ => none

end Sys2Proof.Machine
end

