-- ==== Sys2Proof/Tests/Slice0.lean ====
section
/-! SUPPORT. Tests on small states, their expected values from `95_test_vectors.md` and the rules' own corner cases
(each test names its vector), and one witness for each obligation that has hypotheses. -/

namespace Sys2Proof.Tests

open Sys2Proof.Machine

/-- An idle core: every register 0x55, T unlisted, TLEN 0, no event to come. -/
def idle : State where
  regs := Vector.replicate 16 0x55
  cf := false
  fatal := false
  haz := false
  err := 0
  tlen := 0
  text := []
  inFlight := none
  pending := []
  readLog := []
  resets := 0
  draws := 0

/-- The idle core with `x` in V1 and `y` in V2. -/
def given (x y : Magnitude) : State := writeReg 1 x (writeReg 2 y idle)

/-- Characters as bytes (ASCII, log entry 13). -/
def ascii (cs : List Char) : List Byte := cs.map (fun c => BitVec.ofNat 8 c.toNat)

/-- The idle core with a text operand. -/
def givenText (cs : List Char) : State := writeTextOperand (ascii cs) idle

/-- The idle core with the command of the CMD value `w` in its last cycle. -/
def due (w : Limb) (s : State) : State := withCommandDue w s

/-- The fatal core. -/
def fatalCore : State := raiseFatal .divisionByZero idle

/-- The next state, if there is one. -/
def nextOf : Host.Outcome State Fault Refusal → Option State
  | .next t => some t
  | .fault _ => none
  | .refused _ => none

/-- One step that completes the CMD value `w` on `s`. -/
def completes (w : Limb) (s : State) : Option State := nextOf (step (due w s))

/-- One step that takes the event `e` on `s`. -/
def takes (e : HostEvent) (s : State) : Option State := nextOf (step { s with pending := [e] })

/-! ### Well-formedness and decoding -/

/-- A DIVMOD whose destinations are one register is ill-formed, and the check refuses it (R84). -/
theorem test_wellFormed_refuses_same_destination : (Instr.divmod 3 3 1 2).wellFormed = false := by decide

/-- It is also refused when that register is a source, and when the divisor is another register. -/
theorem test_wellFormed_refuses_divmod_v0 : (Instr.divmod 0 0 0 15).wellFormed = false := by decide

theorem test_wellFormed_admits_divmod : (Instr.divmod 3 4 1 2).wellFormed = true := by decide

/-- Section 2.1: 0x00021301. -/
theorem test_decode_add : decode 0x00021301 = .ok (.add 3 1 2) := by decide
/-- Section 2.2: 0x00021302. -/
theorem test_decode_sub : decode 0x00021302 = .ok (.sub 3 1 2) := by decide
/-- Section 2.3: 0x00021003. -/
theorem test_decode_lt : decode 0x00021003 = .ok (.lt 1 2) := by decide
/-- Section 2.4: 0x00021304. -/
theorem test_decode_mul : decode 0x00021304 = .ok (.mul 3 1 2) := by decide
/-- Section 2.5: 0x00021308. -/
theorem test_decode_div : decode 0x00021308 = .ok (.div 3 1 2) := by decide
/-- Section 2.5: 0x00021309. -/
theorem test_decode_mod : decode 0x00021309 = .ok (.mod 3 1 2) := by decide
/-- R88: 0x0052140A is `DIVMOD V4, V5, V1, V2`. -/
theorem test_decode_divmod : decode 0x0052140A = .ok (.divmod 4 5 1 2) := by decide
/-- Section 2.6: 0x00000110. -/
theorem test_decode_parse : decode 0x00000110 = .ok (.parse 1) := by decide
/-- Section 2.7: 0x00001011. -/
theorem test_decode_format : decode 0x00001011 = .ok (.format 1) := by decide

/-- Section 2.8, X1 to X12: each CMD value is refused, for the reason the table gives. -/
theorem test_decode_illegal :
    decodeCmdWrite 0x0 = .error (.unknownOpcode 0x00) ∧ decodeCmdWrite 0x5 = .error (.unknownOpcode 0x05) ∧
    decodeCmdWrite 0xFF = .error (.unknownOpcode 0xFF) ∧ decodeCmdWrite 0x01021301 = .error (.unusedFieldSet .add) ∧
    decodeCmdWrite 0x00121301 = .error (.unusedFieldSet .add) ∧
    decodeCmdWrite 0x00021103 = .error (.unusedFieldSet .lt) ∧
    decodeCmdWrite 0x00001110 = .error (.unusedFieldSet .parse) ∧
    decodeCmdWrite 0x00001111 = .error (.unusedFieldSet .format) ∧
    decodeCmdWrite 0x0032130A = .error (.sameDestination 3) ∧
    decodeCmdWrite 0x100021301 = .error .highBitsSet ∧
    decodeCmdWrite 0xB = .error (.unknownOpcode 0x0B) ∧ decodeCmdWrite 0x12 = .error (.unknownOpcode 0x12) := by decide

/-- R88's two examples, from the assembler syntax to the word; names in lower case stand for the same registers. -/
theorem test_assemble :
    (assemble "ADD V3, V1, V2".toList).map encode = some 0x00021301 ∧
    (assemble "divmod v4,v5,v1,v2".toList).map encode = some 0x0052140A := by decide +kernel

theorem test_decodeTableWord : decodeTableWord 32 0x00021301 = some (.add 3 1 2) ∧
    decodeTableWord 32 0x0000000A = none := by decide

/-- The command placed on the state after reset is run by the very next step. -/
theorem test_withFetchWord : step (State.reset.withFetchWord 32 0x00021301) = exec (.add 3 1 2)
    { State.reset with inFlight := some { cur := 0x00021301, illegalHi := false, remaining := 1 } } := rfl

/-! ### The kernel (sections 2.1 to 2.4) -/

/-- A1. -/
theorem test_add_max_one : (completes 0x00021301 (given maxValue 1)).map (fun t => (readReg t 3, t.cf)) =
    some (0, true) := by decide
/-- A4: limbs [0 0 1 0]. -/
theorem test_add_limb_carry : (completes 0x00021301 (given 0xFFFFFFFFFFFFFFFF 1)).map (fun t => (readReg t 3, t.cf)) =
    some (ofLimbs 0 1 0 0, false) := by decide
/-- B7. -/
theorem test_sub_borrow : (completes 0x00021302 (given 5 7)).map (fun t => (readReg t 3, t.cf)) =
    some (BitVec.ofNat 256 (2 ^ 256 - 2), true) := by decide
/-- B6: limbs [0 f…f f…f f…f]. -/
theorem test_sub_limb_borrow : (completes 0x00021302 (given (ofLimbs 0 0 0 1) 1)).map (fun t => (readReg t 3, t.cf)) =
    some (ofLimbs 0xFFFFFFFFFFFFFFFF 0xFFFFFFFFFFFFFFFF 0xFFFFFFFFFFFFFFFF 0, false) := by decide
/-- L1, and V0 as it was: `rd` names no destination. -/
theorem test_lt_less : (completes 0x00021003 (given 5 7)).map (fun t => (t.cf, readReg t 0)) =
    some (true, 0x55) := by decide
/-- L6. -/
theorem test_lt_high_limb : (completes 0x00021003 (given (ofLimbs 0 0 0 1)
    (ofLimbs 0xFFFFFFFFFFFFFFFF 0xFFFFFFFFFFFFFFFF 0xFFFFFFFFFFFFFFFF 0))).map (·.cf) = some false := by decide
/-- M12v: `10^38` squared is P76. -/
theorem test_mul_p38 : (completes 0x00021304 (given p38 p38)).map (fun t => (readReg t 3, t.cf)) =
    some (p76, false) := by decide
/-- M4v. -/
theorem test_mul_overflow : (completes 0x00021304 (given (ofLimbs 0 0 1 0) (ofLimbs 0 0 1 0))).map
    (fun t => (readReg t 3, t.cf)) = some (0, true) := by decide

/-! ### Division (section 2.5) -/

/-- D19's quotient. -/
theorem test_div_d19 : (completes 0x00021308 (given (ofLimbs 0 0 0x7FFFFFFFFFFFFFFF 0)
    (ofLimbs 0xFFFFFFFFFFFFFFFF 0x8000000000000000 0 0))).map (fun t => readReg t 3) =
    some 0xFFFFFFFFFFFFFFFC := by decide
/-- D24: `0 / 0` is fatal, and V3 stays. -/
theorem test_div_zero : (completes 0x00021308 (given 0 0)).map (fun t => (readReg t 3, t.err, t.fatal)) =
    some (0x55, 4, true) := by decide
/-- D9's remainder. -/
theorem test_mod_d9 : (completes 0x00021309 (given maxValue p19)).map (fun t => readReg t 3) =
    some 0x693FCF03E3D7FFFF := by decide
/-- D21. -/
theorem test_mod_zero : (completes 0x00021309 (given 7 0)).map (fun t => (readReg t 3, t.err, t.fatal)) =
    some (0, 0, false) := by decide
/-- D25: both destinations are also sources. -/
theorem test_divmod_aliased : (completes 0x0022110A (given 10 3)).map (fun t => (readReg t 1, readReg t 2)) =
    some (3, 1) := by decide
/-- X9: one destination named twice is illegal, also with a zero divisor. -/
theorem test_divmod_same_destination : (completes 0x0032130A (given 7 0)).map (fun t => (readReg t 3, t.err, t.fatal)) =
    some (0x55, 5, false) := by decide

/-! ### The codec (sections 2.6 and 2.7) -/

/-- P6v. -/
theorem test_parse_plus_zeros : (completes 0x00000110 (givenText ['+', '0', '0', '1', '2', '3'])).map
    (fun t => (readReg t 1, t.err)) = some (123, 0) := by decide
/-- P10v: `"++1"`. -/
theorem test_parse_two_plus : (completes 0x00000110 (givenText ['+', '+', '1'])).map
    (fun t => (readReg t 1, t.err)) = some (0, 3) := by decide
/-- F3, with the bytes above the text as they were. -/
theorem test_format_1000 : (completes 0x00001011 (writeText 4 0x7A (given 1000 0))).map
    (fun t => (textOperand t, t.tlen, readText t 4)) = some (ascii ['1', '0', '0', '0'], 4, 0x7A) := by decide
/-- F1. -/
theorem test_format_zero : (completes 0x00001011 (given 0 0)).map (fun t => (textOperand t, t.tlen)) =
    some (ascii ['0'], 1) := by decide

/-- P16v and P17v on the text alone: the length test comes before the syntax test, and 78 bytes pass it. -/
theorem test_parse_order : parseText (ascii ('x' :: List.replicate 78 '1')) = .error .range ∧
    parseText (ascii (List.replicate 77 '1' ++ ['x'])) = .error .badSyntax := by decide +kernel
/-- P11v, P12v: the digits of MAX and of MAX + 1. -/
theorem test_parse_max : parseText (ascii (Nat.toDigits 10 (2 ^ 256 - 1))) = .ok maxValue ∧
    parseText (ascii (Nat.toDigits 10 (2 ^ 256))) = .error .range := by decide +kernel
/-- F7 and F8. -/
theorem test_dec : dec (ofLimbs 0x098A224000000001 0x4B3B4CA85A86C47A 0 0) =
      ascii ('1' :: (List.replicate 37 '0' ++ ['1'])) ∧
    dec maxValue = ascii (Nat.toDigits 10 (2 ^ 256 - 1)) := by decide +kernel

/-! ### The window (section 2.9) -/

/-- W1. -/
theorem test_read_id : (takes (.read 0x000 8) idle).map (·.readLog) = some [0x000000004D4D0001] := by decide
/-- W2, also while BUSY: CMD reads as 0. -/
theorem test_read_cmd : (takes (.read 0x018 8) { idle with inFlight := some ⟨0x00021301, false, 3⟩ }).map (·.readLog) =
    some [0] := by decide
/-- R27: BUSY 0, CF 1, FATAL 0, HAZ 1, ERR 5. -/
theorem test_read_status : (takes (.read 0x008 8) { idle with cf := true, haz := true, err := 5 }).map (·.readLog) =
    some [0x050A] := by decide
/-- W6. -/
theorem test_bad_access : step { idle with pending := [.read 0x004 8] } = .fault (.busError 0x004 8) ∧
    step { idle with pending := [.write 0x220 4 5] } = .fault (.busError 0x220 4) := ⟨rfl, rfl⟩
/-- W8. -/
theorem test_busy_write : (takes (.write 0x220 8 5) { idle with inFlight := some ⟨0x00021301, false, 3⟩ }).map
    (fun t => (t.haz, readReg t 1)) = some (true, 0x55) := by decide
/-- W10 and W11. -/
theorem test_fatal_writes : (takes (.write 0x018 8 0x00021301) fatalCore).map (fun t => (t.haz, t.busy)) =
      some (true, false) ∧
    (takes (.write 0x220 8 5) fatalCore).map (fun t => (t.haz, readReg t 1)) = some (false, 5) := by decide
/-- W13: SRST comes before CLRHAZ. -/
theorem test_soft_reset : (takes (.write 0x010 8 3) { fatalCore with tlen := 9, cf := true, haz := true }).map
    (fun t => (t.fatal, t.err, t.tlen, t.cf, t.haz)) = some (false, 0, 0, false, false) := by decide
/-- W14. -/
theorem test_tlen : (takes (.write 0x020 8 0x1FF) idle).map (·.tlen) = some 0xFF := by decide
/-- W16. -/
theorem test_text_little_endian : (takes (.write 0x100 8 0x0807060504030201) idle).map
    (fun t => (List.range 8).map (readText t)) = some [1, 2, 3, 4, 5, 6, 7, 8] := by decide
/-- R21: limb 3 of V15 is the last word of the register file. -/
theorem test_limb_map : windowReg 0x3F8 = .limb 15 3 ∧ windowReg 0x228 = .limb 1 1 ∧ windowReg 0x1F8 = .text 31 := by
  decide

/-! ### The constants and the reference datapaths -/

/-- The powers of `10_state.md` R35 from their limbs. -/
theorem test_constants : p19.toNat = 10 ^ 19 ∧ p38.toNat = 10 ^ 38 ∧ p57.toNat = 10 ^ 57 ∧ p76.toNat = 10 ^ 76 ∧
    maxValue.toNat = 2 ^ 256 - 1 := by decide
/-- A6 and B6 through the chains; M13v through the product. -/
theorem test_reference_kernel :
    refAdd (ofLimbs 0 0 0 0x8000000000000000) (ofLimbs 0 0 0 0x8000000000000000) = (0, true) ∧
    refSub (ofLimbs 0 0 0 1) 1 =
      (ofLimbs 0xFFFFFFFFFFFFFFFF 0xFFFFFFFFFFFFFFFF 0xFFFFFFFFFFFFFFFF 0, false) ∧
    refMul (BitVec.ofNat 256 (10 ^ 39)) (BitVec.ofNat 256 (10 ^ 39)) =
      (ofLimbs 0 0xA9F4D2505E3A4000 0xE3569326C7843372 0xA2DBF142DFCC7AB6, true) := by decide +kernel
/-- D9 on the fast path; D16 (clamp, then add-back) and D19 (two corrections) by Algorithm D. -/
theorem test_reference_division :
    refDivSmall (2 ^ 256 - 1) (10 ^ 19) =
      (0x1D83C94FB6D2AC34A5663D3C7A0D865CA3C4CA40E0EA7CFE9, 0x693FCF03E3D7FFFF) ∧
    refAlgorithmD (2 ^ 192) (2 ^ 128 + 1) = (0xFFFFFFFFFFFFFFFF, 0xFFFFFFFFFFFFFFFF0000000000000001) ∧
    refAlgorithmD 0x7FFFFFFFFFFFFFFF00000000000000000000000000000000 0x8000000000000000FFFFFFFFFFFFFFFF =
      (0xFFFFFFFFFFFFFFFC, 0x4FFFFFFFFFFFFFFFC) := by decide +kernel
/-- F5: the lower chunk is padded; P22v: two chunks. -/
theorem test_reference_codec : refFormat p19 = ascii ('1' :: List.replicate 19 '0') ∧
    refParseDigits (ascii ('1' :: List.replicate 19 '0')) = (p19, false) := by decide +kernel

/-! ### Witnesses: states and operands that meet an obligation's hypotheses -/

theorem witness_DecodeEncodeIdentity : (Instr.divmod 0 15 15 0).wellFormed = true ∧
    decode (encode (.divmod 0 15 15 0)) = .ok (.divmod 0 15 15 0) := by decide

theorem witness_EncodeDecodeIdentity : decode 0x00F0F00A = .ok (.divmod 0 15 15 0) := by decide

theorem witness_OpcodeRowsNeverOverlap : (0x00021301 : CommandWord) &&& Opcode.mask .add = Opcode.pattern .add := by
  decide

/-- Both the identity clause (`y = 0`) and the exactness clause (CF 0). -/
theorem witness_AddLaws : ∃ t, exec (.add 3 1 2) (given maxValue 0) = .next t ∧
    readReg (given maxValue 0) 2 = 0 ∧ t.cf = false ∧ ∃ u, exec (.add 3 2 1) (given maxValue 0) = .next u :=
  ⟨_, rfl, by decide, by decide, _, rfl⟩

/-- The clause `x = y`. -/
theorem witness_SubLaws_equal : ∃ t, exec (.sub 3 1 2) (given 7 7) = .next t ∧
    readReg (given 7 7) 1 = readReg (given 7 7) 2 ∧ ∃ u, exec (.lt 1 2) (given 7 7) = .next u :=
  ⟨_, rfl, by decide, _, rfl⟩

/-- The clause that a SUB undoes an ADD: V3 holds 5, and `5 + 7` goes to V1. -/
theorem witness_SubLaws_inverse : ∃ u t, exec (.add 1 3 2) (writeReg 3 5 (given 0 7)) = .next u ∧ u.cf = false ∧
    exec (.sub 4 1 2) u = .next t ∧ readReg u 2 = readReg (writeReg 3 5 (given 0 7)) 2 :=
  ⟨_, _, rfl, by decide, rfl, by decide⟩

theorem witness_LtIsTotalOrder : ∃ t u, exec (.lt 1 2) (given 5 7) = .next t ∧ exec (.lt 2 1) (given 5 7) = .next u :=
  ⟨_, _, rfl, rfl⟩

/-- Both the identity clause (`y = 1`) and the exactness clause (CF 0). -/
theorem witness_MulLaws : ∃ t, exec (.mul 3 1 2) (given maxValue 1) = .next t ∧
    readReg (given maxValue 1) 2 = 1 ∧ t.cf = false ∧ ∃ u, exec (.mul 3 2 1) (given maxValue 1) = .next u :=
  ⟨_, rfl, by decide, by decide, _, rfl⟩

/-- The divisor that is not 0 and the divisor 0, for DIV, MOD and DIVMOD. -/
theorem witness_DivResultAndFatal : readReg (given 7 1) 2 ≠ 0 ∧ readReg (given 7 0) 2 = 0 := by decide

theorem witness_ModResultAndFrame : ∃ t u, exec (.mod 3 1 2) (given 7 1) = .next t ∧ readReg (given 7 1) 2 ≠ 0 ∧
    exec (.mod 3 1 2) (given 7 0) = .next u ∧ readReg (given 7 0) 2 = 0 :=
  ⟨_, _, rfl, by decide, rfl, by decide⟩

/-- Destinations that differ with a divisor that is not 0 and with the divisor 0; and one destination twice. -/
theorem witness_DivmodResultFatalAndIllegal : (3 : RegNum) ≠ 4 ∧ readReg (given 7 1) 2 ≠ 0 ∧
    readReg (given 7 0) 2 = 0 ∧ (3 : RegNum) = 3 := by decide

theorem witness_DivisionResultsAgree : (3 : RegNum) ≠ 4 ∧ readReg (given 10 3) 2 ≠ 0 ∧
    (∃ t, exec (.divmod 3 4 1 2) (given 10 3) = .next t) ∧ (∃ u, exec (.div 3 1 2) (given 10 3) = .next u) ∧
    ∃ v, exec (.mod 4 1 2) (given 10 3) = .next v :=
  ⟨by decide, by decide, ⟨_, rfl⟩, ⟨_, rfl⟩, _, rfl⟩

/-- The empty text, the lone `'+'`, and `"+007"`, taken apart, with the digits of 7. -/
theorem witness_ParseOutcome_small : idle.tlen = 0 ∧ textOperand (givenText ['+']) = [0x2B] ∧
    textOperand (givenText ['+', '0', '0', '7']) = [0x2B] ++ List.replicate 2 0x30 ++ [0x37] ∧
    ([0x37] : List Byte).head? ≠ some 0x30 := by decide

/-- `"x"` after no zeros: a rest that is no digit string. -/
theorem witness_ParseOutcome_syntax :
    textOperand (givenText ['x']) = [] ++ List.replicate 0 0x30 ++ [0x78] ∧
    ([0x78] : List Byte).head? ≠ some 0x30 ∧ ([0x78] : List Byte).head? ≠ some 0x2B ∧
    ¬ ∀ c ∈ ([0x78] : List Byte), 0x30 ≤ c.toNat ∧ c.toNat ≤ 0x39 := by decide

/-- 79 digits, the first length above the limit. -/
theorem witness_ParseOutcome_length :
    textOperand (givenText (List.replicate 79 '1')) = [] ++ List.replicate 0 0x30 ++ List.replicate 79 0x31 ∧
    78 < (List.replicate 79 (0x31 : Byte)).length ∧
    (List.replicate 79 (0x31 : Byte)).head? ≠ some 0x30 ∧ (List.replicate 79 (0x31 : Byte)).head? ≠ some 0x2B := by
  decide +kernel

/-- `2^256`, the first value above the maximum, and `2^256 − 1`, both of 78 digits. -/
theorem witness_ParseOutcome_value :
    let big := ascii (Nat.toDigits 10 (2 ^ 256))
    let max := ascii (Nat.toDigits 10 (2 ^ 256 - 1))
    textOperand (writeTextOperand big idle) = big ∧ big.length = 78 ∧ big.head? ≠ some 0x30 ∧
    big.head? ≠ some 0x2B ∧ (∀ c ∈ big, 0x30 ≤ c.toNat ∧ c.toNat ≤ 0x39) ∧
    Nat.ofDigits 10 (big.map (fun c => c.toNat - 0x30)).reverse = 2 ^ 256 ∧
    textOperand (writeTextOperand max idle) = max ∧ max.length = 78 ∧ max.head? ≠ some 0x30 ∧
    max.head? ≠ some 0x2B ∧ (∀ c ∈ max, 0x30 ≤ c.toNat ∧ c.toNat ≤ 0x39) ∧
    Nat.ofDigits 10 (max.map (fun c => c.toNat - 0x30)).reverse = 2 ^ 256 - 1 := by decide +kernel

/-- `"12"`, and `"+0012"` from it. -/
theorem witness_ParseLaws_prefix : ∃ t, exec (.parse 1) (givenText ['1', '2']) = .next t ∧ t.err = 0 ∧
    (textOperand (givenText ['1', '2'])).head? ≠ some 0x2B ∧
    textOperand (givenText ['+', '0', '0', '1', '2']) =
      [0x2B] ++ List.replicate 2 0x30 ++ textOperand (givenText ['1', '2']) :=
  ⟨_, rfl, by decide, by decide, by decide⟩

/-- `dec` of 0 and of the maximum as text operands. -/
theorem witness_ParseLaws_dec : textOperand (givenText ['0']) = dec 0 ∧
    textOperand (writeTextOperand (ascii (Nat.toDigits 10 (2 ^ 256 - 1))) idle) = dec maxValue := by decide +kernel

theorem witness_DecIsCanonical : (1 : Magnitude) ≠ 0 := by decide

/-- A text of more than one byte, and an index in it and one after it. -/
theorem witness_FormatResultAndFrame : ∃ t, exec (.format 1) (given 10 0) = .next t ∧ 1 < t.tlen.toNat ∧
    0 < t.tlen.toNat ∧ t.tlen.toNat ≤ 2 := ⟨_, rfl, by decide, by decide, by decide⟩

/-- A text that parses: `"+00"`, of which only zeros remain. -/
theorem witness_FormatParseRoundTrips : ∃ t, exec (.parse 1) (givenText ['+', '0', '0']) = .next t ∧ t.err = 0 :=
  ⟨_, rfl, by decide⟩

/-- A command that is no FORMAT, and one that makes the core fatal. -/
theorem witness_CommandsChangeOnlyDestinations : (∀ rs1, Instr.div 3 1 2 ≠ .format rs1) ∧
    ∃ t, exec (.div 3 1 2) (given 7 0) = .next t ∧ t.fatal = true ∧ (given 7 0).fatal = false :=
  ⟨by decide, _, rfl, by decide, by decide⟩

/-- Two states that agree on the sources of an ADD and differ elsewhere. -/
theorem witness_ResultsDependOnlyOnSources :
    (∀ n ∈ sources (.add 3 1 2), readReg (given 5 7) n = readReg { writeReg 9 0 (given 5 7) with cf := true } n) ∧
    sourceText (.add 3 1 2) (given 5 7) = sourceText (.add 3 1 2) { writeReg 9 0 (given 5 7) with cf := true } ∧
    (Instr.add 3 1 2).opcode ∈ [Opcode.add, .sub, .lt, .mul] ∧
    (∃ t, exec (.add 3 1 2) (given 5 7) = .next t ∧ t.err = 0) ∧
    ∃ t, exec (.add 3 1 2) { writeReg 9 0 (given 5 7) with cf := true } = .next t :=
  ⟨by decide, by decide, by decide, ⟨_, rfl, by decide⟩, _, rfl⟩

/-- The same for a FORMAT. -/
theorem witness_ResultsDependOnlyOnSources_format :
    (∀ n ∈ sources (.format 1), readReg (given 5 7) n = readReg (given 5 8) n) ∧
    (∃ t, exec (.format 1) (given 5 7) = .next t) ∧ ∃ t, exec (.format 1) (given 5 8) = .next t :=
  ⟨by decide, ⟨_, rfl⟩, _, rfl⟩

theorem witness_OnlyKernelCommandsWriteCf : (Instr.parse 1).opcode ∉ [Opcode.add, .sub, .lt, .mul] ∧
    ∃ t, exec (.parse 1) idle = .next t := ⟨by decide, _, rfl⟩

theorem witness_ErrorsArePrecise : ∃ t, completeCommand ⟨0x00000110, false, 1⟩ idle = .next t ∧ t.err ≠ 0 :=
  ⟨_, rfl, by decide⟩

/-- One CMD value for each of the three kinds of illegal command (X10, X2, X9), on an idle core. -/
theorem witness_IllegalCommandCompletes : idle.busy = false ∧ idle.fatal = false ∧
    (0x100021301 : Limb).extractLsb' 32 32 ≠ 0 ∧
    (∀ o ∈ Opcode.all, (0x5 : Limb).extractLsb' 0 32 &&& o.mask ≠ o.pattern) ∧
    ((0x0032130A : Limb).extractLsb' 0 8 = 0x0A ∧
      (0x0032130A : Limb).extractLsb' 8 4 = (0x0032130A : Limb).extractLsb' 20 4) := by decide

/-- The two queues with which the illegal command of X2 is due. -/
theorem witness_IllegalCommandCompletes_due :
    ({ idle with inFlight := some ⟨0x5, false, 1⟩ } : State).pending = [] ∧
    (due 0x5 idle).inFlight = some ⟨0x5, false, 1⟩ ∧ (due 0x5 idle).pending = .cycle :: [] := by decide

/-- SRST with CLRHAZ, CLRHAZ alone, and neither. -/
theorem witness_CtrlWriteActs : (3 : Limb).getLsbD 0 = true ∧ (2 : Limb).getLsbD 0 = false ∧
    (2 : Limb).getLsbD 1 = true ∧ (4 : Limb).getLsbD 0 = false ∧ (4 : Limb).getLsbD 1 = false := by decide

/-- A busy core, a fatal one, and an idle one that is not fatal. -/
theorem witness_CmdWriteAcceptedOrDropped : (due 0x00021301 idle).busy = true ∧ fatalCore.fatal = true ∧
    idle.busy = false ∧ idle.fatal = false := by decide

theorem witness_TlenReadWrite : idle.busy = false ∧ (due 0x00021301 idle).busy = true := by decide

/-- The first and the last word of the text buffer. -/
theorem witness_TextWordsAreLittleEndian : (0 < 32 ∧ 31 < 32) ∧ idle.busy = false := by decide

/-- The last limb of the register file, and a limb next to it. -/
theorem witness_LimbsReadWrite : idle.busy = false ∧ (2 : Fin 4) ≠ 3 ∧
    (BitVec.ofNat 12 (0x200 + 0x20 * (15 : Fin 16).val + 0x8 * (3 : Fin 4).val)) = 0x3F8 := by decide

/-- The ends of both reserved ranges (W3). -/
theorem witness_ReservedOffsetsReadZero : ∀ off ∈ ([0x028, 0x0F8, 0x400, 0xFF8] : List Offset), off.toNat % 8 = 0 ∧
    ((0x028 ≤ off.toNat ∧ off.toNat ≤ 0x0FF) ∨ (0x400 ≤ off.toNat ∧ off.toNat ≤ 0xFFF)) := by decide

/-- An access the window takes, a misaligned one and a narrow one (W6). -/
theorem witness_OnlyAlignedWordAccesses : (8 = 8 ∧ (0xFF8 : Offset).toNat % 8 = 0) ∧
    ¬ (8 = 8 ∧ (0x004 : Offset).toNat % 8 = 0) ∧ ¬ (4 = 8 ∧ (0x220 : Offset).toNat % 8 = 0) := by decide

/-- A busy core and offsets at the ends of each clause's ranges. -/
theorem witness_BusyAccesses : (due 0x00021301 idle).busy = true ∧ (0x018 : Offset).toNat = 0x018 ∧
    (∀ off ∈ ([0x018, 0x020, 0x100, 0x3F8] : List Offset), off.toNat % 8 = 0 ∧
      (off.toNat = 0x018 ∨ off.toNat = 0x020 ∨ (0x100 ≤ off.toNat ∧ off.toNat < 0x400))) ∧
    ∀ off ∈ ([0x000, 0x008, 0x010, 0x028, 0x0F8, 0x400, 0xFF8] : List Offset), off.toNat % 8 = 0 ∧
      (off.toNat < 0x018 ∨ (0x028 ≤ off.toNat ∧ off.toNat < 0x100) ∨ 0x400 ≤ off.toNat) := by decide

/-- A write dropped by a fatal core whose HAZ is 0, and CLRHAZ on a core whose HAZ is 1. -/
theorem witness_HazExactlyOnDroppedWrites :
    (∃ t, step { fatalCore with pending := [.write 0x018 8 0] } = .next t ∧ fatalCore.haz = false ∧
      fatalCore.fatal = true) ∧
    ∃ t, step { idle with haz := true, pending := [.write 0x010 8 2] } = .next t ∧ t.haz = false :=
  ⟨⟨_, rfl, by decide, by decide⟩, _, rfl, by decide⟩

/-- The fatal core meets the invariant. -/
theorem coreInv_fatalCore : CoreInv fatalCore where
  text_wf := by decide
  err_produced := by decide
  fatal_iff := by decide
  fatal_idle := by decide
  remaining_pos := by simp [fatalCore, raiseFatal]

theorem witness_FatalUntilReset : CoreInv fatalCore ∧ fatalCore.fatal = true ∧ ∃ t, step fatalCore = .next t :=
  ⟨coreInv_fatalCore, rfl, _, rfl⟩

theorem witness_FatalBlocksCommandsOnly : CoreInv fatalCore ∧ fatalCore.fatal = true := ⟨coreInv_fatalCore, rfl⟩

/-- Both queues: none to come, and a cycle first. -/
theorem witness_StepRunsDecodedCommand :
    ({ idle with inFlight := some ⟨0x0052140A, false, 1⟩ } : State).pending = [] ∧
    (due 0x0052140A idle).inFlight = some ⟨0x0052140A, false, 1⟩ ∧ (due 0x0052140A idle).pending = [.cycle] ∧
    decode 0x0052140A = .ok (.divmod 4 5 1 2) ∧ (Instr.divmod 4 5 1 2).wellFormed = true := by decide

/-- A command and an illegal word (X10), with no event to come. -/
theorem witness_AcceptedCommandCompletes : idle.busy = false ∧ idle.fatal = false ∧ idle.pending = [] ∧
    decodeCmdWrite 0x0052140A = .ok (.divmod 4 5 1 2) ∧ decodeCmdWrite 0x100021301 = .error .highBitsSet := by decide

/-- The events between acceptance and completion: host accesses, and all cycles of the latency but one. -/
theorem witness_AcceptedCommandCompletes_events (s : State) :
    let events := [.read 0x008 8, .write 0x220 8 5, .write 0x010 8 2] ++
      List.replicate (latencyOf 0x0052140A s - 1) HostEvent.cycle
    ({ idle with pending := events ++ .cycle :: [.read 0x008 8] } : State).pending =
      events ++ .cycle :: [.read 0x008 8] ∧
    (∀ e ∈ events, e.KeepsCommand) ∧ events.count .cycle + 1 = latencyOf 0x0052140A s := by
  have hl : 1 ≤ latencyOf 0x0052140A s := by simp only [latencyOf]; split <;> exact Nat.le_add_left 1 _
  refine ⟨rfl, ?_, ?_⟩
  · simp [HostEvent.KeepsCommand]
  · rw [List.count_append, List.count_replicate_self, show List.count HostEvent.cycle
      [.read 0x008 8, .write 0x220 8 5, .write 0x010 8 2] = 0 by decide]
    omega

/-- A step of a queue that is empty, and one of a queue that is not. -/
theorem witness_EventsTakeEffectInOrder : (∃ t, step idle = .next t ∧ idle.pending = []) ∧
    ∃ t, step { idle with pending := [.hardReset, .cycle] } = .next t := ⟨⟨_, rfl, rfl⟩, _, rfl⟩

theorem witness_ReadsHaveNoSideEffect : ∃ t, event (.read 0x220 8) (due 0x00021301 idle) = .next t := ⟨_, rfl⟩

/-- A busy core meets the invariant and takes a step. -/
theorem witness_StepKeepsInvariant : CoreInv (due 0x00021308 (given 7 0)) ∧
    ∃ t, step (due 0x00021308 (given 7 0)) = .next t :=
  ⟨{ text_wf := by decide
     err_produced := by decide
     fatal_iff := by decide
     fatal_idle := by decide
     remaining_pos := by simp [due, withCommandDue] }, _, rfl⟩

/-- The smallest and the largest normalised divisor, with the largest dividend each admits. -/
theorem witness_Div21IsExact : ∀ d ∈ [2 ^ 63, 2 ^ 64 - 1], 2 ^ 63 ≤ d ∧ d < 2 ^ 64 ∧ d - 1 < d ∧ 2 ^ 64 - 1 < 2 ^ 64 := by
  decide

theorem witness_FastPathConforms : 2 ^ 256 - 1 < 2 ^ 256 ∧ (∀ y ∈ [1, 2 ^ 64 - 1], 0 < y ∧ y < 2 ^ 64) := by decide

theorem witness_AlgorithmDConforms : 2 ^ 256 - 1 < 2 ^ 256 ∧
    ∀ y ∈ [2 ^ 64, 2 ^ 256 - 1], 2 ^ 64 ≤ y ∧ y < 2 ^ 256 := by decide

/-- The empty string and the 78 digits of the maximum. -/
theorem witness_ParseDatapathConforms :
    ∀ s ∈ [[], ascii (Nat.toDigits 10 (2 ^ 256 - 1))], s.length ≤ 78 ∧ (∀ c ∈ s, isDigit c = true) ∧
      decimalValue s ≤ maxMagnitude := by decide +kernel

/-- The first address after the window. -/
theorem witness_WindowAtBase : Config.mmBase + 4096 ≤ Config.mmBase + 4096 := le_refl _

theorem witness_LoadAndReadRegisterMacros :
    ({ idle with pending := macroLdv 15 maxValue ++ macroRdv 15 ++ [.cycle] } : State).busy = false := by decide

/-- The empty text and one of 255 bytes. -/
theorem witness_LoadTextMacro : ([] : List Byte).length ≤ 255 ∧ (List.replicate 255 (0x31 : Byte)).length ≤ 255 ∧
    ({ idle with pending := macroLdt (List.replicate 255 0x31) ++ [.cycle] } : State).busy = false := by
  decide +kernel

end Sys2Proof.Tests
end

section
/-! Proofs about the control window: places whose accesses do the same in every state, BUSY and FATAL included
(`10_state.md` R26, R28). -/

namespace Sys2Proof.Machine

/-! ### Accesses by the place they reach -/

/-- A place that BUSY does not guard returns its value in every state (`20_memory.md` R63). -/
theorem event_read_of_not_guarded {off : Offset} {r : WindowReg} (hok : accessOk off 8 = true)
    (hr : windowReg off = r) (hg : r.guarded = false) (s : State) :
    event (.read off 8) s = .next (returnWord (windowValue s r) s) := by
  rw [event_read hok]
  rcases hostRead_cases off s with ⟨-, -, hguarded⟩ | ⟨hread, -⟩
  · simp [hr, hg] at hguarded
  · rw [hread, hr]

/-- ID, STATUS and the reserved offsets take no writes (`10_state.md` R26, R27, `20_memory.md` R52). -/
theorem hostWrite_of_not_writable {off : Offset}
    (hr : windowReg off = .id ∨ windowReg off = .status ∨ windowReg off = .reserved) (w : Limb) (s : State) :
    hostWrite off w s = s := by
  rcases hr with hr | hr | hr <;> simp only [hostWrite, hr]

theorem hostWrite_of_ctrl {off : Offset} (hr : windowReg off = .ctrl) (w : Limb) (s : State) :
    hostWrite off w s = writeCtrl w s := by
  simp only [hostWrite, hr]

/-! ### The three meanings of a CTRL write (`10_state.md` R28) -/

theorem writeCtrl_of_srst {w : Limb} (h0 : w.getLsbD 0 = true) (s : State) : writeCtrl w s = softReset s :=
  if_pos h0

theorem writeCtrl_of_clrhaz {w : Limb} (h0 : w.getLsbD 0 = false) (h1 : w.getLsbD 1 = true) (s : State) :
    writeCtrl w s = clearHaz s := by
  simp only [writeCtrl, h0, h1, Bool.false_eq_true, if_false, if_true]

theorem writeCtrl_of_neither {w : Limb} (h0 : w.getLsbD 0 = false) (h1 : w.getLsbD 1 = false) (s : State) :
    writeCtrl w s = s := by
  simp only [writeCtrl, h0, h1, Bool.false_eq_true, if_false]

/-! ### ID and CTRL -/

/-- Settles O28: ID is a place that BUSY does not guard and that takes no writes. -/
theorem idIsConstant : Obligations.IdIsConstant := by
  intro s w
  have hok : accessOk 0x000 8 = true := by decide
  have hid : windowReg 0x000 = .id := by decide
  refine ⟨?ignored, idValue, event_read_of_not_guarded hok hid rfl s, ?fields⟩
  case ignored => rw [event_write hok, hostWrite_of_not_writable (.inl hid)]
  case fields => decide

/-- Settles O30: CTRL is a place that BUSY does not guard, and bits 0 and 1 of the value written choose among the
three meanings of the write. -/
theorem ctrlWriteActs : Obligations.CtrlWriteActs := by
  intro s w
  have hok : accessOk 0x010 8 = true := by decide
  have hctrl : windowReg 0x010 = .ctrl := by decide
  refine ⟨writeCtrl w s, ?acts, event_read_of_not_guarded hok hctrl rfl s, ?srst, ?clrhaz, ?neither⟩
  case acts => rw [event_write hok, hostWrite_of_ctrl hctrl]
  case srst => exact fun h0 => writeCtrl_of_srst h0 s
  case clrhaz => exact fun h0 h1 => writeCtrl_of_clrhaz h0 h1 s
  case neither => exact fun h0 h1 => writeCtrl_of_neither h0 h1 s

end Sys2Proof.Machine
end

section
/-! Proofs about CMD and the reserved offsets: what a host access to them does in every state (`20_memory.md` R52,
R61). -/

namespace Sys2Proof.Machine

/-! ### CMD writes (`20_memory.md` R61) -/

theorem hostWrite_of_cmd {off : Offset} (hr : windowReg off = .cmd) (w : Limb) (s : State) :
    hostWrite off w s = writeCmd w s := by
  simp only [hostWrite, hr]

theorem writeCmd_of_busy_or_fatal {s : State} (h : s.busy = true ∨ s.fatal = true) (w : Limb) :
    writeCmd w s = dropWrite s :=
  if_pos (Bool.or_eq_true_iff.2 h)

theorem writeCmd_of_idle {s : State} (hb : s.busy = false) (hf : s.fatal = false) (w : Limb) :
    writeCmd w s = acceptCommand w s := by
  simp only [writeCmd, hb, hf, Bool.or_false, Bool.false_eq_true, if_false]

/-- A word that decodes and a word that does not both take a cycle at least (`00_scope.md` R9). -/
theorem one_le_latencyOf (cur : CommandWord) (s : State) : 1 ≤ latencyOf cur s := by
  rcases hd : decode cur with e | i <;> simp only [latencyOf, hd] <;> exact Nat.le_add_left 1 _

/-- Settles O31: CMD is a place that BUSY does not guard, and BUSY and FATAL choose between the two meanings of a
write to it. -/
theorem cmdWriteAcceptedOrDropped : Obligations.CmdWriteAcceptedOrDropped := by
  intro s w
  have hok : accessOk 0x018 8 = true := by decide
  have hcmd : windowReg 0x018 = .cmd := by decide
  refine ⟨event_read_of_not_guarded hok hcmd rfl s, writeCmd w s, ?acts, ?dropped, ?accepted⟩
  case acts => rw [event_write hok, hostWrite_of_cmd hcmd]
  case dropped => exact fun h => writeCmd_of_busy_or_fatal h w
  case accepted =>
    intro hb hf
    rw [writeCmd_of_idle hb hf]
    exact ⟨rfl, _, rfl, rfl, bne_iff_ne, one_le_latencyOf _ s, rfl⟩

/-! ### Reserved offsets (`20_memory.md` R52) -/

/-- Settles O35: the two ranges are the map's reserved places, which BUSY does not guard and which take no writes. -/
theorem reservedOffsetsReadZero : Obligations.ReservedOffsetsReadZero := by
  intro s off w haligned hrange
  have hok : accessOk off 8 = true := (accessOk_iff off 8).2 ⟨rfl, haligned⟩
  have hreserved : windowReg off = .reserved := (windowReg_eq_reserved_iff off).2 (by omega)
  refine ⟨event_read_of_not_guarded hok hreserved rfl s, ?ignored⟩
  case ignored => rw [event_write hok, hostWrite_of_not_writable (.inr (.inr hreserved))]

end Sys2Proof.Machine
end

section
/-! Proofs about the opcode map: which words its rows name (`30_encoding.md` R82, R84), and that no two of them match
one word (R83). -/

namespace Sys2Proof.Machine

/-- Two rows with one operation code are the same row: the lookup by code finds both. -/
theorem opcode_code_injective : Function.Injective Opcode.code := by
  intro o o' hcode
  have ho : Opcode.ofCode o'.code = some o := (ofCode_eq_some_iff _ o).2 hcode
  have ho' : Opcode.ofCode o'.code = some o' := (ofCode_eq_some_iff _ o').2 rfl
  exact Option.some.inj (ho.symm.trans ho')

/-- R84's condition speaks of the DIVMOD row only. -/
theorem withFields_wellFormed_iff (o : Opcode) (w : CommandWord) :
    (o.withFields w).wellFormed = true ↔ (o = .divmod → rdField w ≠ rd2Field w) := by
  cases o
  case divmod => simp [Opcode.withFields, Instr.wellFormed]
  all_goals exact iff_of_true rfl nofun

/-- A word is the command of a row, with its own register fields, when it matches the row and R84 allows it. -/
theorem decode_eq_withFields_iff (o : Opcode) (w : CommandWord) : decode w = .ok (o.withFields w) ↔
    w &&& o.mask = o.pattern ∧ (o = .divmod → rdField w ≠ rd2Field w) := by
  rw [decode_eq_ok_iff, withFields_opcode, withFields_wellFormed_iff, and_iff_left rfl]

theorem decode_eq_withFields_iff_of_ne_divmod {o : Opcode} (ho : o ≠ .divmod) (w : CommandWord) :
    decode w = .ok (o.withFields w) ↔ w &&& o.mask = o.pattern :=
  (decode_eq_withFields_iff o w).trans (and_iff_left fun hdivmod => absurd hdivmod ho)

theorem decode_eq_withFields_divmod_iff (w : CommandWord) : decode w = .ok (Opcode.divmod.withFields w) ↔
    w &&& Opcode.divmod.mask = Opcode.divmod.pattern ∧ rdField w ≠ rd2Field w :=
  (decode_eq_withFields_iff .divmod w).trans (and_congr_right' (forall_prop_of_true rfl))

/-- Settles O3: each clause is a row's own equivalence, with the row's mask, match and fields written out. -/
theorem decodeFollowsOpcodeMap : Obligations.DecodeFollowsOpcodeMap := by
  intro w
  have row (o : Opcode) (ho : o ≠ .divmod) := decode_eq_withFields_iff_of_ne_divmod ho w
  exact ⟨row .add nofun, row .sub nofun, row .lt nofun, row .mul nofun, row .div nofun, row .mod nofun,
    decode_eq_withFields_divmod_iff w, row .parse nofun, row .format nofun⟩

/-- Settles O4: a word that matches a row carries the row's operation code, and no two rows share a code. -/
theorem opcodeRowsNeverOverlap : Obligations.OpcodeRowsNeverOverlap := by
  refine ⟨?opIncluded, ?unique⟩
  case opIncluded => intro o; cases o <;> decide
  case unique =>
    intro w o o' hmatch hmatch'
    have hcode : o.code = o'.code := (opField_of_match hmatch).symm.trans (opField_of_match hmatch')
    exact opcode_code_injective hcode

end Sys2Proof.Machine
end

section
/-! Proofs about the unsigned kernel: what ADD, SUB, LT and MUL leave in CF and in their destination, and that they
leave everything else alone (`40_kernel.md` R101, R104, R107, R110). -/

namespace Sys2Proof.Machine

/-! ### How a kernel command ends -/

/-- The state in which ADD, SUB and MUL end: `V[rd] <- v`, `CF <- c`, then `complete` (`40_kernel.md` R100). -/
def kernelEnd (rd : RegNum) (v : Magnitude) (c : Bool) (s : State) : State := complete (writeCf c (writeReg rd v s))

@[simp] theorem readReg_kernelEnd_self (rd : RegNum) (v : Magnitude) (c : Bool) (s : State) :
    readReg (kernelEnd rd v c s) rd = v := by
  simp [kernelEnd]

@[simp] theorem kernelEnd_cf (rd : RegNum) (v : Magnitude) (c : Bool) (s : State) : (kernelEnd rd v c s).cf = c := rfl

theorem exec_add (rd rs1 rs2 : RegNum) (s : State) : exec (.add rd rs1 rs2) s =
    .next (kernelEnd rd (sumOf (readReg s rs1) (readReg s rs2)) (carryOut (readReg s rs1) (readReg s rs2)) s) := rfl

theorem exec_sub (rd rs1 rs2 : RegNum) (s : State) : exec (.sub rd rs1 rs2) s =
    .next (kernelEnd rd (differenceOf (readReg s rs1) (readReg s rs2)) (borrowOut (readReg s rs1) (readReg s rs2)) s) :=
  rfl

theorem exec_lt (rs1 rs2 : RegNum) (s : State) : exec (.lt rs1 rs2) s =
    .next (complete (writeCf (borrowOut (readReg s rs1) (readReg s rs2)) s)) := rfl

theorem exec_mul (rd rs1 rs2 : RegNum) (s : State) : exec (.mul rd rs1 rs2) s =
    .next (kernelEnd rd (productOf (readReg s rs1) (readReg s rs2)) (mulOverflow (readReg s rs1) (readReg s rs2)) s) :=
  rfl

/-! ### What the end of a command leaves alone -/

/-- A command that changes no more than registers, CF, TLEN and T before its `complete` ends without an error. -/
theorem endedWith_complete {s u : State}
    (hu : u = { s with regs := u.regs, cf := u.cf, tlen := u.tlen, text := u.text }) :
    EndedWith .noError s (complete u) := by
  rw [hu]
  exact ⟨rfl, rfl, rfl, rfl, rfl, rfl, rfl, rfl⟩

/-- ADD, SUB and MUL write `rd`, CF, ERR and BUSY only. -/
theorem kernelEnd_frame (rd : RegNum) (v : Magnitude) (c : Bool) (s : State) :
    EndedWith .noError s (kernelEnd rd v c s) ∧ RegsSameExcept [rd] s (kernelEnd rd v c s) ∧
      TextSame s (kernelEnd rd v c s) ∧ (kernelEnd rd v c s).tlen = s.tlen := by
  refine ⟨endedWith_complete rfl, ?regs, fun _ => rfl, rfl⟩
  case regs =>
    intro n hn
    have hne : rd ≠ n := fun h => hn (List.mem_singleton.2 h.symm)
    exact readReg_writeReg_ne s hne v

/-- LT writes CF, ERR and BUSY only. -/
theorem complete_writeCf_frame (c : Bool) (s : State) :
    EndedWith .noError s (complete (writeCf c s)) ∧ RegsSameExcept [] s (complete (writeCf c s)) ∧
      TextSame s (complete (writeCf c s)) ∧ (complete (writeCf c s)).tlen = s.tlen :=
  ⟨endedWith_complete rfl, fun _ _ => rfl, fun _ => rfl, rfl⟩

/-! ### Results -/

/-- Settles O6: ADD's end state holds the sum and the carry as naturals, and the rest by the kernel's frame. -/
theorem addResultAndFrame : Obligations.AddResultAndFrame := by
  intro rd rs1 rs2 s
  refine ⟨Laws.EncodingRow.add rd rs1 rs2, _, exec_add rd rs1 rs2 s, ?sum, ?carry, kernelEnd_frame ..⟩
  case sum => rw [readReg_kernelEnd_self, sumOf_toNat]
  case carry => rw [kernelEnd_cf, carryOut_eq_true_iff]

/-- Settles O7: SUB's end state holds the difference as an integer and the borrow, and the rest by the kernel's
frame. -/
theorem subResultAndFrame : Obligations.SubResultAndFrame := by
  intro rd rs1 rs2 s
  refine ⟨Laws.EncodingRow.sub rd rs1 rs2, _, exec_sub rd rs1 rs2 s, ?difference, ?borrow, kernelEnd_frame ..⟩
  case difference => rw [readReg_kernelEnd_self, differenceOf_toNat]
  case borrow => rw [kernelEnd_cf, borrowOut_eq_true_iff]

/-- Settles O8: LT's end state differs from the first in CF, ERR and BUSY only, and CF is the comparison. -/
theorem ltResultAndFrame : Obligations.LtResultAndFrame := by
  intro rs1 rs2 s
  refine ⟨Laws.EncodingRow.lt rs1 rs2, _, exec_lt rs1 rs2 s, ?comparison, complete_writeCf_frame ..⟩
  case comparison => rw [complete_cf, writeCf_cf, borrowOut_eq_true_iff]

/-- Settles O9: MUL's end state holds the low half of the product and the overflow, and the rest by the kernel's
frame. -/
theorem mulResultAndFrame : Obligations.MulResultAndFrame := by
  intro rd rs1 rs2 s
  refine ⟨Laws.EncodingRow.mul rd rs1 rs2, _, exec_mul rd rs1 rs2 s, ?product, ?overflow, kernelEnd_frame ..⟩
  case product => rw [readReg_kernelEnd_self, productOf_toNat]
  case overflow => rw [kernelEnd_cf, mulOverflow_eq_true_iff]

end Sys2Proof.Machine
end

section
/-! Proofs about the laws of LT and MUL: the borrow chain compares two magnitudes (`40_kernel.md` R105, R108), and the
product commutes, has identity 1 and is exact without overflow (R112). -/

namespace Sys2Proof.Machine

/-! ### The borrow chain (`40_kernel.md` R105) -/

/-- The limb list of a magnitude has its value. -/
@[simp] theorem limbListValue_limbList (v : Magnitude) : limbListValue (limbList v) = v.toNat := by
  rw [toNat_eq_limbs]
  simp only [limbList, limbListValue]
  omega

/-- The last borrow tells whether the first list, less the borrow in, is below the second: a limb decides for the
limbs under it, and leaves the decision to the limbs over it. -/
theorem subChain_borrow {xs ys : List Nat} (hlimbs : List.Forall₂ (fun x y => x < 2 ^ 64 ∧ y < 2 ^ 64) xs ys)
    {b : Nat} (hb : b ≤ 1) :
    (subChain b xs ys).2 = if limbListValue xs < limbListValue ys + b then 1 else 0 := by
  induction hlimbs generalizing b with
  | nil => interval_cases b <;> rfl
  | @cons x y xs ys hxy _ ih =>
    have hborrow : (if (x : Int) - y - b < 0 then 1 else 0) ≤ 1 := by split <;> omega
    have hrest : limbListValue xs < limbListValue ys + (if (x : Int) - y - b < 0 then 1 else 0) ↔
        limbListValue (x :: xs) < limbListValue (y :: ys) + b := by
      simp only [limbListValue]
      split <;> omega
    exact (ih hborrow).trans (if_congr hrest rfl rfl)

theorem limbList_forall₂ (x y : Magnitude) :
    List.Forall₂ (fun a b => a < 2 ^ 64 ∧ b < 2 ^ 64) (limbList x) (limbList y) := by
  have h (j : Fin 4) : (limb x j).toNat < 2 ^ 64 ∧ (limb y j).toNat < 2 ^ 64 := ⟨(limb x j).isLt, (limb y j).isLt⟩
  exact .cons (h 0) (.cons (h 1) (.cons (h 2) (.cons (h 3) .nil)))

/-- The last borrow of the reference datapath is the borrow of the exact difference. -/
theorem refSub_borrow (x y : Magnitude) : (refSub x y).2 = borrowOut x y := by
  have hchain := subChain_borrow (limbList_forall₂ x y) (Nat.zero_le 1)
  simp only [refSub, hchain, limbListValue_limbList, Nat.add_zero, borrowOut]
  split <;> simp [*]

/-! ### LT is a total order (`40_kernel.md` R108) -/

theorem borrowOut_eq_false_iff (x y : Magnitude) : borrowOut x y = false ↔ y.toNat ≤ x.toNat := by
  rw [← Bool.not_eq_true, borrowOut_eq_true_iff, Nat.not_lt]

/-- Exactly one of `x < y`, `y < x` and `x = y` holds, as the borrows tell it. -/
theorem borrowOut_trichotomy (x y : Magnitude) :
    (borrowOut x y = true ∧ borrowOut y x = false ∧ x ≠ y) ∨
    (borrowOut x y = false ∧ borrowOut y x = true ∧ x ≠ y) ∨
    (borrowOut x y = false ∧ borrowOut y x = false ∧ x = y) := by
  simp only [borrowOut_eq_true_iff, borrowOut_eq_false_iff, ne_eq, ← BitVec.toNat_inj]
  omega

/-- Settles O12: CF after LT is the exact borrow, which the chain computes and which orders the magnitudes. -/
theorem ltIsTotalOrder : Obligations.LtIsTotalOrder := by
  intro n m s t u ht hu
  rw [exec_lt] at ht hu
  cases ht
  cases hu
  exact ⟨(refSub_borrow _ _).symm, borrowOut_trichotomy _ _⟩

/-! ### The laws of MUL (`40_kernel.md` R112) -/

theorem productOf_comm (x y : Magnitude) : productOf x y = productOf y x := by
  rw [productOf, productOf, Nat.mul_comm]

theorem mulOverflow_comm (x y : Magnitude) : mulOverflow x y = mulOverflow y x := by
  rw [mulOverflow, mulOverflow, Nat.mul_comm]

theorem mulOverflow_eq_false_iff (x y : Magnitude) : mulOverflow x y = false ↔ x.toNat * y.toNat < 2 ^ 256 := by
  rw [← Bool.not_eq_true, mulOverflow_eq_true_iff, Nat.not_le]

/-- Without overflow the low half is the whole product. -/
theorem productOf_toNat_of_not_overflow {x y : Magnitude} (h : mulOverflow x y = false) :
    (productOf x y).toNat = x.toNat * y.toNat := by
  rw [productOf_toNat, Nat.mod_eq_of_lt ((mulOverflow_eq_false_iff x y).1 h)]

theorem mulOverflow_one (x : Magnitude) : mulOverflow x 1 = false :=
  (mulOverflow_eq_false_iff x 1).2 ((Nat.mul_one x.toNat).trans_lt x.isLt)

theorem productOf_one (x : Magnitude) : productOf x 1 = x :=
  BitVec.eq_of_toNat_eq ((productOf_toNat_of_not_overflow (mulOverflow_one x)).trans (Nat.mul_one x.toNat))

/-- Settles O13: MUL's result and CF are the product and its overflow, which have the three laws. -/
theorem mulLaws : Obligations.MulLaws := by
  intro rd rs1 rs2 s t ht
  rw [exec_mul] at ht
  cases ht
  simp only [readReg_kernelEnd_self, kernelEnd_cf]
  refine ⟨?commutes, ?identity, productOf_toNat_of_not_overflow⟩
  case commutes =>
    intro u hu
    rw [exec_mul] at hu
    cases hu
    exact ⟨(readReg_kernelEnd_self ..).trans (productOf_comm _ _), mulOverflow_comm _ _⟩
  case identity =>
    intro hone
    rw [hone]
    exact ⟨productOf_one _, mulOverflow_one _⟩

end Sys2Proof.Machine
end

section
/-! Proofs about the division engine: what DIV, MOD and DIVMOD leave in their destinations, how they end for a divisor
0, that they leave everything else alone (`41_division.md` R121 to R123), and that they agree (R124). -/

namespace Sys2Proof.Machine

/-! ### How a division command ends -/

theorem exec_mod (rd rs1 rs2 : RegNum) (s : State) : exec (.mod rd rs1 rs2) s =
    .next (complete (writeReg rd
      (if readReg s rs2 = 0 then 0 else remainderOf (readReg s rs1) (readReg s rs2)) s)) := rfl

theorem exec_mod_of_ne_zero {rd rs1 rs2 : RegNum} {s : State} (h : readReg s rs2 ≠ 0) :
    exec (.mod rd rs1 rs2) s =
      .next (complete (writeReg rd (remainderOf (readReg s rs1) (readReg s rs2)) s)) := by
  rw [exec_mod, if_neg h]

/-- The quotient stands in the first of two different destinations: the write of the second leaves it alone. -/
theorem readReg_writeReg_writeReg_fst {q r : RegNum} (h : q ≠ r) (v w : Magnitude) (s : State) :
    readReg (writeReg r w (writeReg q v s)) q = v := by
  rw [readReg_writeReg_ne _ h.symm, readReg_writeReg_self]

/-! ### What the end of a division command leaves alone -/

theorem regsSameExcept_writeReg (n : RegNum) (v : Magnitude) (s : State) : RegsSameExcept [n] s (writeReg n v s) := by
  intro m hm
  exact readReg_writeReg_ne s (List.ne_of_not_mem_cons hm).symm v

theorem regsSameExcept_writeReg_writeReg (q r : RegNum) (v w : Magnitude) (s : State) :
    RegsSameExcept [q, r] s (writeReg r w (writeReg q v s)) := by
  intro m hm
  obtain ⟨hq, hr⟩ : m ≠ q ∧ m ≠ r := not_or.1 (mt List.mem_pair.2 hm)
  rw [readReg_writeReg_ne _ hr.symm, readReg_writeReg_ne s hq.symm]

/-- A command that writes registers only and then completes leaves CF, T and TLEN alone (`10_state.md` R25). -/
theorem complete_regs_frame {ns : List RegNum} {s u : State} (hu : u = { s with regs := u.regs })
    (hregs : RegsSameExcept ns s u) :
    EndedWith .noError s (complete u) ∧ (complete u).cf = s.cf ∧ RegsSameExcept ns s (complete u) ∧
      TextSame s (complete u) ∧ (complete u).tlen = s.tlen := by
  have hcf : u.cf = s.cf := by rw [hu]
  have htlen : u.tlen = s.tlen := by rw [hu]
  have htext : u.text = s.text := by rw [hu]
  have hresets : u.resets = s.resets := by rw [hu]
  have hended : EndedWith .noError s (complete u) := endedWith_complete (by rw [hu])
  exact ⟨hended, hcf, hregs, readText_congr htext hresets, htlen⟩

/-- A fatal end writes ERR, FATAL and BUSY only (`60_exceptions.md` R172). -/
theorem raiseFatal_frame (e : ErrorName) (s : State) :
    CommandEnded s (raiseFatal e s) ∧ (raiseFatal e s).cf = s.cf ∧ RegsSameExcept [] s (raiseFatal e s) ∧
      TextSame s (raiseFatal e s) ∧ (raiseFatal e s).tlen = s.tlen :=
  ⟨⟨rfl, rfl, rfl, rfl, rfl, rfl⟩, rfl, fun _ _ => rfl, fun _ => rfl, rfl⟩

/-- A recoverable error writes ERR and BUSY only (`60_exceptions.md` R171). -/
theorem raiseRecoverable_frame (e : ErrorName) (s : State) :
    EndedWith e s (raiseRecoverable e s) ∧ (raiseRecoverable e s).cf = s.cf ∧
      RegsSameExcept [] s (raiseRecoverable e s) ∧ TextSame s (raiseRecoverable e s) ∧
      (raiseRecoverable e s).tlen = s.tlen :=
  ⟨⟨rfl, rfl, rfl, rfl, rfl, rfl, rfl, rfl⟩, rfl, fun _ _ => rfl, fun _ => rfl, rfl⟩

/-! ### Results -/

/-- Settles O14: the divisor chooses between the quotient, with the frame of a completion, and the fatal end. -/
theorem divResultAndFatal : Obligations.DivResultAndFatal := by
  intro rd rs1 rs2 s
  refine ⟨Laws.EncodingRow.div rd rs1 rs2, ?nonzero, ?zero⟩
  case nonzero =>
    intro hy
    refine ⟨_, exec_div_of_ne_zero hy, ?quotient, complete_regs_frame rfl (regsSameExcept_writeReg _ _ _)⟩
    case quotient => rw [readReg_complete, readReg_writeReg_self, quotientOf_toNat]
  case zero => exact fun hy => ⟨_, exec_div_of_eq_zero hy, rfl, rfl, raiseFatal_frame ..⟩

/-- Settles O15: MOD completes in every state, and the divisor chooses the value it writes. -/
theorem modResultAndFrame : Obligations.ModResultAndFrame := by
  intro rd rs1 rs2 s
  refine ⟨Laws.EncodingRow.mod rd rs1 rs2, _, exec_mod rd rs1 rs2 s, ?remainder, ?zero,
    complete_regs_frame rfl (regsSameExcept_writeReg _ _ _)⟩
  case remainder =>
    intro hy
    rw [readReg_complete, readReg_writeReg_self, if_neg hy, remainderOf_toNat]
  case zero =>
    intro hy
    rw [readReg_complete, readReg_writeReg_self, if_pos hy]

/-- Settles O16: the destinations are tested first, then the divisor; each of the three ends has its own frame. -/
theorem divmodResultFatalAndIllegal : Obligations.DivmodResultFatalAndIllegal := by
  intro rd rd2 rs1 rs2 s
  refine ⟨Laws.EncodingRow.divmod rd rd2 rs1 rs2, ?nonzero, ?zero, ?illegal⟩
  case nonzero =>
    intro hne hy
    refine ⟨_, exec_divmod_of_ne_zero hne hy, ?quotient, ?remainder,
      complete_regs_frame rfl (regsSameExcept_writeReg_writeReg _ _ _ _ _)⟩
    case quotient => rw [readReg_complete, readReg_writeReg_writeReg_fst hne, quotientOf_toNat]
    case remainder => rw [readReg_complete, readReg_writeReg_self, remainderOf_toNat]
  case zero => exact fun hne hy => ⟨_, exec_divmod_of_eq_zero hne hy, rfl, rfl, raiseFatal_frame ..⟩
  case illegal => exact fun heq => ⟨_, exec_divmod_of_eq heq, raiseRecoverable_frame ..⟩

/-! ### Agreement (`41_division.md` R124) -/

theorem quotientOf_mul_add_remainderOf (x y : Magnitude) :
    (quotientOf x y).toNat * y.toNat + (remainderOf x y).toNat = x.toNat := by
  rw [quotientOf_toNat, remainderOf_toNat, Nat.div_add_mod']

theorem remainderOf_lt {x y : Magnitude} (hy : y ≠ 0) : (remainderOf x y).toNat < y.toNat := by
  rw [remainderOf_toNat]
  exact Nat.mod_lt _ ((magnitude_ne_zero_iff y).1 hy)

theorem quotientOf_le (x y : Magnitude) : (quotientOf x y).toNat ≤ x.toNat := by
  rw [quotientOf_toNat]
  exact Nat.div_le_self _ _

/-- Settles O17: all three commands write the one quotient and the one remainder of `41_division.md` R120, which have
the laws. -/
theorem divisionResultsAgree : Obligations.DivisionResultsAgree := by
  intro q r q' r' a b s t u v hne hy ht hu hv
  rw [exec_divmod_of_ne_zero hne hy] at ht
  rw [exec_div_of_ne_zero hy] at hu
  rw [exec_mod_of_ne_zero hy] at hv
  cases ht
  cases hu
  cases hv
  simp only [readReg_complete, readReg_writeReg_self, readReg_writeReg_writeReg_fst hne]
  exact ⟨trivial, trivial, quotientOf_mul_add_remainderOf _ _, remainderOf_lt hy, quotientOf_le _ _⟩

end Sys2Proof.Machine
end

section
/-! Proofs about the decimal text of a magnitude: `dec(v)` is a digit string with no leading zero (`42_codec.md` R150),
and such a string is determined by its value. -/

namespace Sys2Proof.Machine

/-! ### Digit strings -/

/-- A digit string (`42_codec.md` R140). -/
def AllDigits (s : List Byte) : Prop := ∀ c ∈ s, isDigit c = true

/-- A digit string with no leading zero: the empty string is the one that stands for 0. -/
def PlainDigits (s : List Byte) : Prop := AllDigits s ∧ s.head? ≠ some charZero

theorem allDigits_iff (s : List Byte) : AllDigits s ↔ ∀ c ∈ s, 0x30 ≤ c.toNat ∧ c.toNat ≤ 0x39 :=
  forall₂_congr fun c _ => isDigit_eq_true_iff c

theorem digitValue_lt_ten {c : Byte} (h : isDigit c = true) : digitValue c < 10 := by
  obtain ⟨-, hle⟩ := (isDigit_eq_true_iff c).1 h
  unfold digitValue
  omega

theorem digitValue_eq_zero_iff {c : Byte} (h : isDigit c = true) : digitValue c = 0 ↔ c = charZero := by
  rw [← digitByte_eq_charZero_iff (digitValue_lt_ten h), digitByte_digitValue h]

/-- A digit string is the digits of its digit values. -/
theorem map_digitByte_map_digitValue {s : List Byte} (h : AllDigits s) : (s.map digitValue).map digitByte = s := by
  rw [List.map_map]
  exact (List.map_congr_left fun c hc => digitByte_digitValue (h c hc)).trans (List.map_id s)

/-- The digit values of a digit string with no leading zero are Mathlib's digits of its value. -/
theorem digits_decimalValue {s : List Byte} (h : PlainDigits s) :
    Nat.digits 10 (decimalValue s) = (s.map digitValue).reverse := by
  obtain ⟨hdigits, hhead⟩ := h
  rw [decimalValue_eq_ofDigits]
  refine Nat.digits_ofDigits 10 (by norm_num) _ ?below ?last
  case below =>
    intro d hd
    obtain ⟨c, hc, rfl⟩ := List.mem_map.1 (List.mem_reverse.1 hd)
    exact digitValue_lt_ten (hdigits c hc)
  case last =>
    intro hne
    cases s with
    | nil => exact absurd rfl hne
    | cons c s =>
      have hc : c ≠ charZero := fun h => hhead (congrArg some h)
      simpa [digitValue_eq_zero_iff (hdigits c List.mem_cons_self)] using hc

/-- Two digit strings with no leading zero that have one value are the same string. -/
theorem decimalValue_injOn : Set.InjOn decimalValue {s | PlainDigits s} := by
  rintro s ⟨hs, hshead⟩ t ⟨ht, hthead⟩ hvalue
  have hvalues : s.map digitValue = t.map digitValue :=
    List.reverse_injective
      (by rw [← digits_decimalValue ⟨hs, hshead⟩, ← digits_decimalValue ⟨ht, hthead⟩, hvalue])
  rw [← map_digitByte_map_digitValue hs, ← map_digitByte_map_digitValue ht, hvalues]

/-! ### The digits of `dec(v)` (`42_codec.md` R150) -/

theorem allDigits_dec (v : Magnitude) : AllDigits (dec v) := fun _ hc => mem_decimalDigits (List.mem_reverse.1 hc)

theorem decimalValue_dec (v : Magnitude) : decimalValue (dec v) = v.toNat := by
  rw [decimalValue_eq_ofDigits, dec, decimalText, List.map_reverse, List.reverse_reverse]
  exact ofDigits_decimalDigits (by decide) (magnitude_lt_pow v)

/-- How many bytes `dec(v)` has. -/
theorem dec_length (v : Magnitude) :
    1 ≤ (dec v).length ∧ (dec v).length ≤ maxDigits ∧ v.toNat < 10 ^ (dec v).length ∧
      (1 < (dec v).length → 10 ^ ((dec v).length - 1) ≤ v.toNat) := by
  rw [dec, decimalText, List.length_reverse]
  exact decimalDigits_length (by decide) (magnitude_lt_pow v)

/-- Byte `i` of `dec(v)`, counted from the most significant digit. -/
theorem dec_getElem (v : Magnitude) (i : Nat) (h : i < (dec v).length) :
    (dec v)[i] = digitByte (v.toNat / 10 ^ ((dec v).length - 1 - i) % 10) := by
  simp only [dec, decimalText, List.getElem_reverse, decimalDigits_getElem, List.length_reverse]

/-- The first digit of a magnitude that is not 0 is not 0: the digit at the place of the leading power of ten. -/
theorem dec_head_ne_zero {v : Magnitude} (hv : v ≠ 0) : (dec v).head? ≠ some charZero := by
  obtain ⟨hpos, -, hlt, hge⟩ := dec_length v
  have hv0 : 0 < v.toNat := (magnitude_ne_zero_iff v).1 hv
  have hlead : 10 ^ ((dec v).length - 1) ≤ v.toNat := by
    rcases hpos.eq_or_lt with hone | hmore
    · rw [← hone]; exact hv0
    · exact hge hmore
  have hdigit : 1 ≤ v.toNat / 10 ^ ((dec v).length - 1) := (Nat.one_le_div_iff (by positivity)).2 hlead
  have hten : v.toNat / 10 ^ ((dec v).length - 1) < 10 := by
    rw [Nat.div_lt_iff_lt_mul (by positivity), ← pow_succ', Nat.sub_add_cancel hpos]
    exact hlt
  rw [List.head?_eq_getElem?, List.getElem?_eq_getElem hpos, dec_getElem, Nat.sub_zero, Nat.mod_eq_of_lt hten,
    ne_eq, Option.some.injEq, digitByte_eq_charZero_iff hten]
  omega

theorem plainDigits_dec {v : Magnitude} (hv : v ≠ 0) : PlainDigits (dec v) := ⟨allDigits_dec v, dec_head_ne_zero hv⟩

theorem dec_zero : dec 0 = [charZero] := rfl

/-- Settles O20: the facts about the digits of `dec(v)`, with the bytes and the value written out. -/
theorem decIsCanonical : Obligations.DecIsCanonical := by
  intro v
  obtain ⟨hpos, hmax, -, -⟩ := dec_length v
  have hvalue := (decimalValue_eq_ofDigits (dec v)).symm.trans (decimalValue_dec v)
  exact ⟨(allDigits_iff _).1 (allDigits_dec v), hvalue, dec_head_ne_zero, dec_zero, hpos, hmax⟩

end Sys2Proof.Machine
end

section
/-! Proofs about PARSE: its tests in their order, what it strips, and that it writes its destination and ERR
only (`42_codec.md` R141, R145). -/

namespace Sys2Proof.Machine

/-! ### The tests on the stripped text (`42_codec.md` R141) -/

/-- What PARSE makes of a text of which `s` remains after the stripping. -/
def parseStripped (s : List Byte) : Except ErrorName Magnitude :=
  if maxDigits < s.length then .error .range
  else if s.any (fun c => !isDigit c) then .error .badSyntax
  else if maxMagnitude < decimalValue s then .error .range
  else .ok (BitVec.ofNat 256 (decimalValue s))

/-- The stripped text decides, unless nothing or a lone `'+'` was there. -/
theorem parseText_eq_parseStripped {t : List Byte} (h : stripPlus t ≠ []) :
    parseText t = parseStripped (stripZeros (stripPlus t)) := by
  have ht : t ≠ [] := fun hnil => h (congrArg stripPlus hnil)
  rw [parseText, if_neg ht, if_neg h, parseStripped]

theorem stripPlus_ne_nil_of_parseText_ok {t : List Byte} {v : Magnitude} (h : parseText t = .ok v) :
    stripPlus t ≠ [] := by
  intro hnil
  rw [parseText, if_pos hnil] at h
  split at h <;> cases h

theorem any_not_isDigit_iff (s : List Byte) : s.any (fun c => !isDigit c) = true ↔ ¬ AllDigits s := by
  simp [AllDigits]

theorem parseStripped_of_long {s : List Byte} (h : maxDigits < s.length) : parseStripped s = .error .range := if_pos h

theorem parseStripped_of_not_digits {s : List Byte} (hlen : s.length ≤ maxDigits) (h : ¬ AllDigits s) :
    parseStripped s = .error .badSyntax := by
  rw [parseStripped, if_neg hlen.not_gt, if_pos ((any_not_isDigit_iff s).2 h)]

/-- A digit string of at most 78 bytes is decided by its value. -/
theorem parseStripped_of_digits {s : List Byte} (hlen : s.length ≤ maxDigits) (h : AllDigits s) :
    parseStripped s =
      if decimalValue s < 2 ^ 256 then .ok (BitVec.ofNat 256 (decimalValue s)) else .error .range := by
  rw [parseStripped, if_neg hlen.not_gt, if_neg (mt (any_not_isDigit_iff s).1 (not_not_intro h)), ← ite_not]
  exact if_congr (by rw [maxMagnitude]; omega) rfl rfl

theorem parseStripped_eq_ok_iff (s : List Byte) (v : Magnitude) : parseStripped s = .ok v ↔
    s.length ≤ maxDigits ∧ AllDigits s ∧ decimalValue s = v.toNat := by
  constructor
  · intro h
    have hlen : s.length ≤ maxDigits := by
      by_contra hlong
      rw [parseStripped_of_long (not_le.1 hlong)] at h
      cases h
    have hdigits : AllDigits s := by
      by_contra hnot
      rw [parseStripped_of_not_digits hlen hnot] at h
      cases h
    rw [parseStripped_of_digits hlen hdigits] at h
    split at h
    · next hlt =>
      cases h
      exact ⟨hlen, hdigits, (BitVec.toNat_ofNat _ _ ▸ Nat.mod_eq_of_lt hlt).symm⟩
    · cases h
  · rintro ⟨hlen, hdigits, hvalue⟩
    rw [parseStripped_of_digits hlen hdigits, hvalue, if_pos v.isLt, BitVec.ofNat_toNat, BitVec.setWidth_eq]

/-! ### The sign and the zeros that PARSE strips -/

/-- At most one `'+'`, and zeros. -/
def signAndZeros (plus : Bool) (zeros : Nat) : List Byte :=
  (if plus then [charPlus] else []) ++ List.replicate zeros charZero

/-- The `'+'` is stripped if there is one; else the first byte is a zero, or the text's own first, which is no `'+'`. -/
theorem stripPlus_signAndZeros_append {plus : Bool} {zeros : Nat} {s : List Byte}
    (h : plus = false → zeros = 0 → s.head? ≠ some charPlus) :
    stripPlus (signAndZeros plus zeros ++ s) = List.replicate zeros charZero ++ s := by
  cases plus with
  | true => exact stripPlus_cons _
  | false =>
    refine stripPlus_of_head ?_
    cases zeros with
    | zero => exact h rfl rfl
    | succ zeros => exact (by decide : some charZero ≠ some charPlus)

/-- PARSE of a text with a sign and zeros put before it is decided by what remains of the text. -/
theorem parseText_signAndZeros_append {plus : Bool} {zeros : Nat} {s : List Byte} (hne : zeros ≠ 0 ∨ s ≠ [])
    (h : plus = false → zeros = 0 → s.head? ≠ some charPlus) :
    parseText (signAndZeros plus zeros ++ s) = parseStripped (stripZeros s) := by
  have hstrip := stripPlus_signAndZeros_append h
  have hnil : List.replicate zeros charZero ++ s ≠ [] := by
    rw [ne_eq, List.append_eq_nil_iff, List.replicate_eq_nil_iff]
    tauto
  rw [parseText_eq_parseStripped (hstrip ▸ hnil), hstrip, stripZeros_replicate_append]

theorem head_ne_charPlus_of_allDigits {s : List Byte} (h : AllDigits s) : s.head? ≠ some charPlus := fun hhead =>
  absurd (h charPlus (List.mem_of_mem_head? hhead)) (by decide)

/-- PARSE of `dec(v)` gives `v` (`42_codec.md` R145). -/
theorem parseText_dec (v : Magnitude) : parseText (dec v) = .ok v := by
  rcases eq_or_ne v 0 with rfl | hv
  · rfl
  · obtain ⟨hpos, hmax, -, -⟩ := dec_length v
    have hstrip : stripPlus (dec v) = dec v := stripPlus_of_head (head_ne_charPlus_of_allDigits (allDigits_dec v))
    have hnil : stripPlus (dec v) ≠ [] := by rw [hstrip]; exact List.ne_nil_of_length_pos hpos
    rw [parseText_eq_parseStripped hnil, hstrip, stripZeros_of_head (dec_head_ne_zero hv), parseStripped_eq_ok_iff]
    exact ⟨hmax, allDigits_dec v, decimalValue_dec v⟩

/-! ### How PARSE ends -/

theorem parseEnds_of_ok {s : State} {v : Magnitude} (h : parseText (textOperand s) = .ok v) (rd : RegNum) :
    ParseEnds .noError v rd s := by
  have hframe := complete_regs_frame (u := writeReg rd v s) rfl (regsSameExcept_writeReg rd v s)
  exact ⟨_, exec_parse_of_ok h, readReg_writeReg_self .., hframe⟩

theorem parseEnds_of_error {s : State} {e : ErrorName} (h : parseText (textOperand s) = .error e) (rd : RegNum) :
    ParseEnds e 0 rd s := by
  obtain ⟨hended, hcf, -, htext, htlen⟩ := raiseRecoverable_frame e (writeReg rd 0 s)
  exact ⟨_, exec_parse_of_error h, readReg_writeReg_self .., hended, hcf, regsSameExcept_writeReg rd 0 s, htext, htlen⟩

/-- A PARSE that ends with ERR 0 accepted its text, and left the value in its destination. -/
theorem parseText_of_err_eq_zero {rd : RegNum} {s t : State} (ht : exec (.parse rd) s = .next t) (herr : t.err = 0) :
    parseText (textOperand s) = .ok (readReg t rd) := by
  rcases hp : parseText (textOperand s) with e | v
  · rw [exec_parse_of_error hp] at ht
    cases ht
    rcases parseText_error_cases hp with rfl | rfl | rfl <;> cases herr
  · rw [exec_parse_of_ok hp] at ht
    cases ht
    rw [readReg_complete, readReg_writeReg_self]

/-! ### PARSE -/

/-- Settles O18: the empty text and the lone `'+'` are refused before the stripping, and what the stripping leaves of
any other text decides by the tests on it. -/
theorem parseOutcome : Obligations.ParseOutcome := by
  intro rd s
  refine ⟨Laws.EncodingRow.parse rd, ?empty, ?lonePlus, ?taken⟩
  case empty =>
    intro hlen
    have htext : textOperand s = [] := List.eq_nil_of_length_eq_zero (by rw [textOperand_length, hlen]; rfl)
    exact parseEnds_of_error (htext ▸ rfl) rd
  case lonePlus => exact fun htext => parseEnds_of_error (htext ▸ rfl) rd
  case taken =>
    intro plus zeros rest htext hne hhead hplus
    have hparse : parseText (textOperand s) = parseStripped rest := by
      rw [htext]
      exact (parseText_signAndZeros_append hne hplus).trans (congrArg parseStripped (stripZeros_of_head hhead))
    intro digits value
    have hdigits : AllDigits rest ↔ digits := allDigits_iff rest
    have hvalue : decimalValue rest = value := decimalValue_eq_ofDigits rest
    rw [← hdigits, ← hvalue]
    refine ⟨?long, ?nonDigit, ?tooLarge, ?fits⟩
    case long => exact fun hlong => parseEnds_of_error (hparse.trans (parseStripped_of_long hlong)) rd
    case nonDigit =>
      exact fun hlen hnot => parseEnds_of_error (hparse.trans (parseStripped_of_not_digits hlen hnot)) rd
    case tooLarge =>
      intro hlen hall hlarge
      exact parseEnds_of_error (hparse.trans ((parseStripped_of_digits hlen hall).trans (if_neg hlarge.not_gt))) rd
    case fits =>
      intro hlen hall hlt
      exact parseEnds_of_ok (hparse.trans ((parseStripped_of_digits hlen hall).trans (if_pos hlt))) rd

/-- Settles O19: a text that starts with no `'+'` is stripped of its zeros only, so that a sign and zeros before it
leave the same text to the tests. -/
theorem parseLaws : Obligations.ParseLaws := by
  intro rd s
  refine ⟨?lead, ?canonical, ?frame⟩
  case lead =>
    intro plus zeros s' t' ht' herr hhead htext
    have hok := parseText_of_err_eq_zero ht' herr
    have hne := stripPlus_ne_nil_of_parseText_ok hok
    rw [parseText_eq_parseStripped hne, stripPlus_of_head hhead] at hok
    rw [stripPlus_of_head hhead] at hne
    refine parseEnds_of_ok ?_ rd
    rw [htext]
    exact (parseText_signAndZeros_append (.inr hne) fun _ _ => hhead).trans hok
  case canonical => exact fun v htext => parseEnds_of_ok (htext ▸ parseText_dec v) rd
  case frame =>
    rcases hp : parseText (textOperand s) with e | v
    · exact ⟨e, 0, parseEnds_of_error hp rd⟩
    · exact ⟨.noError, v, parseEnds_of_ok hp rd⟩

end Sys2Proof.Machine
end

section
/-! Proofs about FORMAT: the text it leaves, its length and its frame (`42_codec.md` R152), and the two round trips of
FORMAT and PARSE (R153). -/

namespace Sys2Proof.Machine

/-! ### The text destination -/

theorem writeTextOperand_tlen_toNat {t : List Byte} (ht : t.length ≤ 255) (s : State) :
    (writeTextOperand t s).tlen.toNat = t.length := by
  rw [← textOperand_length, textOperand_writeTextOperand ht]

/-- A text destination is seen at the indices of its text, and nowhere else. -/
theorem readText_writeTextOperand {t : List Byte} (ht : t.length ≤ 255) (s : State) (i : Nat) :
    readText (writeTextOperand t s) i = if h : i < t.length then t[i] else readText s i := by
  rw [writeTextOperand, readText_writeTlen, readText_writeTexts]
  exact dite_congr (propext (by omega)) (fun _ => rfl) (fun _ => rfl)

theorem readReg_writeTextOperand (t : List Byte) (s : State) (n : RegNum) :
    readReg (writeTextOperand t s) n = readReg s n := by
  rw [writeTextOperand, readReg_writeTlen, readReg_writeTexts]

/-- `dec(v)` fits the text buffer and TLEN (`42_codec.md` R152). -/
theorem dec_length_le (v : Magnitude) : (dec v).length ≤ 255 := by
  obtain ⟨-, hmax, -, -⟩ := dec_length v
  exact hmax.trans (by decide)

/-! ### FORMAT -/

theorem exec_format (rs1 : RegNum) (s : State) :
    exec (.format rs1) s = .next (complete (writeTextOperand (dec (readReg s rs1)) s)) := rfl

/-- The text operand that a FORMAT leaves. -/
theorem textOperand_format (v : Magnitude) (s : State) :
    textOperand (complete (writeTextOperand (dec v) s)) = dec v :=
  textOperand_writeTextOperand (dec_length_le v) s

/-- Settles O21: the end state of FORMAT holds `dec(v)` as its text operand, and the rest as it was. -/
theorem formatResultAndFrame : Obligations.FormatResultAndFrame := by
  intro rs1 s
  refine ⟨Laws.EncodingRow.format rs1, _, exec_format rs1 s, ?_⟩
  generalize readReg s rs1 = v
  obtain ⟨hpos, hmax, hlt, hge⟩ := dec_length v
  have hread := readText_writeTextOperand (dec_length_le v) s
  rw [complete_tlen, writeTextOperand_tlen_toNat (dec_length_le v)]
  refine ⟨hpos, hmax, ?digit, hlt, hge, ?beyond, ?ended, ?flag, ?regs⟩
  case digit =>
    intro i hi
    rw [readText_complete, hread, dif_pos hi, dec_getElem]
  case beyond =>
    intro i hi
    rw [readText_complete, hread, dif_neg hi.not_gt]
  case ended => exact endedWith_complete (by rw [writeTextOperand_eq])
  case flag => rw [complete_cf, writeTextOperand_eq]
  case regs => exact fun n _ => readReg_writeTextOperand (dec v) s n

/-! ### The round trips (`42_codec.md` R153) -/

theorem stripZeros_head_ne_zero (s : List Byte) : (stripZeros s).head? ≠ some charZero := by
  intro hhead
  have hfirst := List.head?_dropWhile_not (fun c => c == charZero) s
  rw [show (s.dropWhile fun c => c == charZero).head? = some charZero from hhead] at hfirst
  simp at hfirst

/-- The canonical text of a value that PARSE accepted is what it stripped the text to, or `"0"`: both are digit strings
with no leading zero and of that value. -/
theorem dec_of_parseStripped {s : List Byte} {v : Magnitude} (h : parseStripped s = .ok v)
    (hhead : s.head? ≠ some charZero) : dec v = if s = [] then [charZero] else s := by
  obtain ⟨-, hdigits, hvalue⟩ := (parseStripped_eq_ok_iff s v).1 h
  have hplain : PlainDigits s := ⟨hdigits, hhead⟩
  have hempty : PlainDigits [] := ⟨nofun, nofun⟩
  rcases eq_or_ne v 0 with rfl | hv
  · rw [if_pos (decimalValue_injOn hplain hempty hvalue), dec_zero]
  · have hs : s ≠ [] := by
      rintro rfl
      exact hv (BitVec.eq_of_toNat_eq hvalue.symm)
    rw [if_neg hs]
    exact decimalValue_injOn (plainDigits_dec hv) hplain ((decimalValue_dec v).trans hvalue.symm)

/-- Settles O22: PARSE reads the `dec(v)` that FORMAT leaves as `v`, and FORMAT writes the value of a PARSE as the
one digit string with no leading zero that has it. -/
theorem formatParseRoundTrips : Obligations.FormatParseRoundTrips := by
  refine ⟨?formatParse, ?parseFormat⟩
  case formatParse =>
    intro rs1 rd s
    obtain ⟨u, hu, hvalue, ⟨herr, -, -⟩, -⟩ :=
      parseEnds_of_ok ((congrArg parseText (textOperand_format (readReg s rs1) s)).trans (parseText_dec _)) rd
    exact ⟨_, u, exec_format rs1 s, hu, hvalue, herr⟩
  case parseFormat =>
    intro rd s t ht herr
    have hok := parseText_of_err_eq_zero ht herr
    rw [parseText_eq_parseStripped (stripPlus_ne_nil_of_parseText_ok hok)] at hok
    exact ⟨_, exec_format rd t, (textOperand_format _ t).trans
      (dec_of_parseStripped hok (stripZeros_head_ne_zero _))⟩

end Sys2Proof.Machine
end

section
/-! Proofs about HAZ: which steps raise it and which clear it (`70_reset_and_hazards.md` R210). -/

namespace Sys2Proof.Machine

/-! ### Host writes that are dropped and events that clear HAZ -/

/-- The core drops an aligned host write at `off`: one to CMD while BUSY or FATAL, or one to V, T or TLEN while BUSY
(`20_memory.md` R61, R63). -/
def WriteDropped (off : Offset) (s : State) : Prop :=
  (off.toNat = 0x018 ∧ (s.busy = true ∨ s.fatal = true)) ∨
  (off.toNat % 8 = 0 ∧ (off.toNat = 0x020 ∨ (0x100 ≤ off.toNat ∧ off.toNat < 0x400)) ∧ s.busy = true)

/-- The event is a host write that the core drops. -/
def EventDropsWrite (e : HostEvent) (s : State) : Prop := ∃ off w, e = .write off 8 w ∧ WriteDropped off s

/-- The event to come is a host write that the core drops. -/
def StepDropsWrite (s : State) : Prop := ∃ off w rest, s.pending = .write off 8 w :: rest ∧ WriteDropped off s

/-- The hard reset, and a CTRL write with SRST or CLRHAZ (`10_state.md` R28). -/
def HostEvent.ClearsHaz (e : HostEvent) : Prop :=
  e = .hardReset ∨ ∃ w : Limb, e = .write 0x010 8 w ∧ (w.getLsbD 0 = true ∨ w.getLsbD 1 = true)

/-- The dropped writes by the place they reach. -/
theorem writeDropped_iff {off : Offset} (haligned : off.toNat % 8 = 0) (s : State) : WriteDropped off s ↔
    (windowReg off = .cmd ∧ (s.busy = true ∨ s.fatal = true)) ∨
      ((windowReg off).guarded = true ∧ s.busy = true) := by
  have hcmd : off.toNat = 0x018 ↔ windowReg off = .cmd := by
    rw [windowReg_eq_cmd_iff]; omega
  have hguarded : (off.toNat = 0x020 ∨ (0x100 ≤ off.toNat ∧ off.toNat < 0x400)) ↔
      (windowReg off).guarded = true := by
    rw [windowReg_guarded_iff]; omega
  rw [WriteDropped, hcmd, hguarded, and_iff_right haligned]

theorem eq_ctrl_offset {off : Offset} (haligned : off.toNat % 8 = 0) (hr : windowReg off = .ctrl) : off = 0x010 := by
  have hrange := (windowReg_eq_ctrl_iff off).1 hr
  exact BitVec.eq_of_toNat_eq (show off.toNat = 0x010 by omega)

theorem stepDropsWrite_iff_of_cons {s : State} {e : HostEvent} {rest : List HostEvent} (h : s.pending = e :: rest) :
    StepDropsWrite s ↔ EventDropsWrite e s := by
  simp [StepDropsWrite, EventDropsWrite, h]

/-! ### HAZ after a core cycle, a read and a write -/

theorem completeCommand_haz {c : InFlight} {s t : State} (h : completeCommand c s = .next t) : t.haz = s.haz := by
  obtain ⟨u, hend, hu⟩ := completeCommand_cases c s
  have hhaz : u.haz = s.haz := by rw [hu]
  rcases hend with hend | ⟨e, -, -, hend⟩ | hend <;> cases hend.symm.trans h <;> exact hhaz

theorem coreCycle_haz {s t : State} (h : coreCycle s = .next t) : t.haz = s.haz := by
  rcases coreCycle_cases s with ⟨-, hc⟩ | ⟨c, -, -, hc⟩ | ⟨c, -, -, hc⟩
  · cases hc.symm.trans h; rfl
  · cases hc.symm.trans h; rfl
  · exact completeCommand_haz (hc.symm.trans h)

theorem hostRead_haz (off : Offset) (s : State) : (hostRead off s).haz = s.haz := by
  rcases hostRead_cases off s with ⟨h, -⟩ | ⟨h, -⟩ <;> rw [h]
  · exact returnDraw_haz s
  · exact returnWord_haz s _

/-- A write to V, T or TLEN while BUSY is dropped (`20_memory.md` R63). -/
theorem hostWrite_of_guarded_of_busy {off : Offset} {s : State} (hguarded : (windowReg off).guarded = true)
    (hbusy : s.busy = true) (w : Limb) : hostWrite off w s = dropWrite s := by
  cases hr : windowReg off with
  | tlen | text k | limb n j => simp only [hostWrite, hr, whenIdle, hbusy, if_true]
  | id | status | ctrl | cmd | reserved => simp [hr, WindowReg.guarded] at hguarded

theorem hostWrite_of_writeDropped {off : Offset} {s : State} (haligned : off.toNat % 8 = 0) (hd : WriteDropped off s)
    (w : Limb) : hostWrite off w s = dropWrite s := by
  rcases (writeDropped_iff haligned s).1 hd with ⟨hcmd, hblocked⟩ | ⟨hguarded, hbusy⟩
  · rw [hostWrite_of_cmd hcmd, writeCmd_of_busy_or_fatal hblocked]
  · exact hostWrite_of_guarded_of_busy hguarded hbusy w

/-- A write that is not dropped leaves HAZ as it was, unless it is a CTRL write that clears it. -/
theorem hostWrite_haz_of_not_writeDropped {off : Offset} {s : State} (haligned : off.toNat % 8 = 0)
    (hd : ¬ WriteDropped off s) (w : Limb) : (hostWrite off w s).haz = s.haz ∨
      ((HostEvent.write off 8 w).ClearsHaz ∧ (hostWrite off w s).haz = false) := by
  rcases hostWrite_cases off w s with ⟨h, -⟩ | ⟨hctrl, hsrst, h⟩ | ⟨hctrl, -, hclr, h⟩ | ⟨-, hdrop⟩ |
    ⟨-, -, -, h⟩ | ⟨-, -, h | ⟨k, -, h⟩ | ⟨n, j, -, h⟩⟩
  · exact .inl (by rw [h])
  · exact .inr ⟨.inr ⟨w, by rw [eq_ctrl_offset haligned hctrl], .inl hsrst⟩, by rw [h, softReset_haz]⟩
  · exact .inr ⟨.inr ⟨w, by rw [eq_ctrl_offset haligned hctrl], .inr hclr⟩, by rw [h, clearHaz_haz]⟩
  · exact absurd ((writeDropped_iff haligned s).2 hdrop) hd
  · exact .inl (by rw [h, acceptCommand_haz])
  · exact .inl (by rw [h, writeTlen_haz])
  · exact .inl (by rw [h, writeTextWord_eq])
  · exact .inl (by rw [h, writeLimb_eq])

/-! ### HAZ after an event and after a step -/

/-- All that an event can do to HAZ: a dropped write sets it and changes nothing else, a clearing event clears it, any
other leaves it. -/
theorem event_haz_cases {e : HostEvent} {s t : State} (h : event e s = .next t) :
    (EventDropsWrite e s ∧ t = dropWrite s) ∨
    (¬ EventDropsWrite e s ∧ (t.haz = s.haz ∨ (e.ClearsHaz ∧ t.haz = false))) := by
  rcases event_cases e s with ⟨off, rfl, -, he⟩ | ⟨off, w, rfl, haligned, he⟩ | ⟨rfl, he⟩ | ⟨rfl, he⟩ |
    ⟨_, _, -, -, he⟩ <;> rw [he] at h
  · cases h
    exact .inr ⟨by simp [EventDropsWrite], .inl (hostRead_haz off s)⟩
  · cases h
    by_cases hd : WriteDropped off s
    · exact .inl ⟨⟨off, w, rfl, hd⟩, hostWrite_of_writeDropped haligned hd w⟩
    · exact .inr ⟨by simpa [EventDropsWrite] using hd, hostWrite_haz_of_not_writeDropped haligned hd w⟩
  · exact .inr ⟨by simp [EventDropsWrite], .inl (coreCycle_haz h)⟩
  · cases h
    exact .inr ⟨by simp [EventDropsWrite], .inr ⟨.inl rfl, hardReset_haz s⟩⟩
  · cases h

/-- All that a step can do to HAZ: what its event does, and with no event to come nothing. -/
theorem step_haz_cases {s t : State} (h : step s = .next t) :
    (StepDropsWrite s ∧ t = { s with haz := true, pending := s.pending.tail }) ∨
    (¬ StepDropsWrite s ∧ (t.haz = s.haz ∨ ((∃ e rest, s.pending = e :: rest ∧ e.ClearsHaz) ∧ t.haz = false))) := by
  rcases hp : s.pending with _ | ⟨e, rest⟩
  · rw [step_of_nil hp] at h
    exact .inr ⟨by simp [StepDropsWrite, hp], .inl (coreCycle_haz h)⟩
  · rw [step_of_cons hp] at h
    rw [stepDropsWrite_iff_of_cons hp]
    rcases event_haz_cases h with ⟨hd, ht⟩ | ⟨hd, hsame | ⟨hclear, ht⟩⟩
    · exact .inl ⟨hd, ht⟩
    · exact .inr ⟨hd, .inl hsame⟩
    · exact .inr ⟨hd, .inr ⟨⟨e, rest, rfl, hclear⟩, ht⟩⟩

/-- Settles O38: a step drops a write and does nothing else, or it does not raise HAZ and clears it by a clearing event
only. -/
theorem hazExactlyOnDroppedWrites : Obligations.HazExactlyOnDroppedWrites := by
  intro s t h dropped
  have hdropped : dropped ↔ StepDropsWrite s := Iff.rfl
  rw [hdropped]
  rcases step_haz_cases h with ⟨hd, rfl⟩ | ⟨hd, hhaz⟩
  · exact ⟨fun _ => iff_of_true rfl hd, fun _ => rfl, fun _ ht => nomatch ht⟩
  · refine ⟨fun hs => iff_of_false ?notRaised hd, fun hdrop => absurd hdrop hd, fun hs ht => ?cleared⟩
    case notRaised => rcases hhaz with hsame | ⟨-, ht⟩ <;> simp [*]
    case cleared =>
      rcases hhaz with hsame | ⟨⟨e, rest, hp, hclear⟩, -⟩
      · simp [← hsame, ht] at hs
      · rcases hclear with rfl | ⟨w, rfl, hbits⟩
        · exact ⟨rest, .inl hp⟩
        · exact ⟨rest, .inr ⟨w, hp, hbits⟩⟩

end Sys2Proof.Machine
end

section
/-! Proofs about the encoder: it and the decoder undo each other (`30_encoding.md` sections 1, 2 and 4). -/

namespace Sys2Proof.Machine

/-! ### The word of a command -/

/-- The word of a command matches the command's row of the opcode map. -/
theorem encode_matches_row (i : Instr) : encode i &&& i.opcode.mask = i.opcode.pattern := by
  cases i with
  | add rd rs1 rs2 => exact Laws.EncodingRow.add rd rs1 rs2
  | sub rd rs1 rs2 => exact Laws.EncodingRow.sub rd rs1 rs2
  | lt rs1 rs2 => exact Laws.EncodingRow.lt rs1 rs2
  | mul rd rs1 rs2 => exact Laws.EncodingRow.mul rd rs1 rs2
  | div rd rs1 rs2 => exact Laws.EncodingRow.div rd rs1 rs2
  | mod rd rs1 rs2 => exact Laws.EncodingRow.mod rd rs1 rs2
  | divmod rd rd2 rs1 rs2 => exact Laws.EncodingRow.divmod rd rd2 rs1 rs2
  | parse rd => exact Laws.EncodingRow.parse rd
  | format rs1 => exact Laws.EncodingRow.format rs1

/-- Each bit of a register field is the bit of the word at its place. -/
theorem testBit_regField (lo : Nat) (w : CommandWord) {j : Nat} (hj : j < 4) :
    (regField lo w).val.testBit j = w.getLsbD (lo + j) := by
  have hbit : (w.extractLsb' lo 4).getLsbD j = w.getLsbD (lo + j) := by
    rw [BitVec.getLsbD_extractLsb', decide_eq_true hj, Bool.true_and]
  exact hbit

/-- A register field is determined by its four bits. -/
theorem regField_eq_of_bits {lo : Nat} {w : CommandWord} {n : RegNum}
    (h : ∀ j < 4, w.getLsbD (lo + j) = n.val.testBit j) : regField lo w = n := by
  refine Fin.ext (Nat.eq_of_testBit_eq fun j => ?_)
  rcases Nat.lt_or_ge j 4 with hj | hj
  · rw [testBit_regField lo w hj, h j hj]
  · rw [testBit_regNum hj, testBit_regNum hj]

/-! ### The fields of an assembled word -/

section
variable (o : Opcode) (rd rs1 rs2 rd2 : RegNum)

@[simp] theorem rdField_assembleWord : rdField (assembleWord o rd rs1 rs2 rd2) = rd := by
  refine regField_eq_of_bits fun j hj => ?_
  rw [getLsbD_assembleWord _ _ _ _ _ _ (by omega)]
  interval_cases j <;> rfl

@[simp] theorem rs1Field_assembleWord : rs1Field (assembleWord o rd rs1 rs2 rd2) = rs1 := by
  refine regField_eq_of_bits fun j hj => ?_
  rw [getLsbD_assembleWord _ _ _ _ _ _ (by omega)]
  interval_cases j <;> rfl

@[simp] theorem rs2Field_assembleWord : rs2Field (assembleWord o rd rs1 rs2 rd2) = rs2 := by
  refine regField_eq_of_bits fun j hj => ?_
  rw [getLsbD_assembleWord _ _ _ _ _ _ (by omega)]
  interval_cases j <;> rfl

@[simp] theorem rd2Field_assembleWord : rd2Field (assembleWord o rd rs1 rs2 rd2) = rd2 := by
  refine regField_eq_of_bits fun j hj => ?_
  rw [getLsbD_assembleWord _ _ _ _ _ _ (by omega)]
  interval_cases j <;> rfl

end

/-- The fields of a command's word are the command's registers. -/
theorem withFields_encode (i : Instr) : i.opcode.withFields (encode i) = i := by
  cases i <;> simp [encode, Opcode.withFields, Instr.opcode]

/-- Settles O1: the word of a command matches the command's row, and its fields are the command's registers. -/
theorem decodeEncodeIdentity : Obligations.DecodeEncodeIdentity := by
  intro i hwf
  exact (decode_eq_ok_iff _ i).2 ⟨encode_matches_row i, hwf, withFields_encode i⟩

/-! ### A word from its fields -/

/-- A field that a row's mask covers holds what the row's match holds there. -/
theorem extractLsb'_of_match {w mask pattern : CommandWord} (h : w &&& mask = pattern) {lo len : Nat}
    (hmask : mask.extractLsb' lo len = BitVec.allOnes len) : w.extractLsb' lo len = pattern.extractLsb' lo len := by
  rw [← h, BitVec.extractLsb'_and, hmask, BitVec.and_allOnes]

/-- A register field that a row does not use is 0 in every word that matches the row (`30_encoding.md` R83). -/
theorem regField_eq_zero_of_match {w mask pattern : CommandWord} (h : w &&& mask = pattern) {lo : Nat}
    (hmask : mask.extractLsb' lo 4 = BitVec.allOnes 4) (hpattern : pattern.extractLsb' lo 4 = 0) :
    regField lo w = 0 := by
  rw [regField, extractLsb'_of_match h hmask, hpattern]
  rfl

/-- No row uses bits [31:24] (`30_encoding.md` R80). -/
theorem topByte_eq_zero_of_match {w : CommandWord} {o : Opcode} (h : w &&& o.mask = o.pattern) :
    w.extractLsb' 24 8 = 0 := by
  rw [extractLsb'_of_match h (by cases o <;> decide)]
  cases o <;> decide

/-- A word is its operation code, its four register fields and its top byte. -/
theorem assembleWord_fields {w : CommandWord} {o : Opcode} (hop : opField w = o.code) (htop : w.extractLsb' 24 8 = 0) :
    assembleWord o (rdField w) (rs1Field w) (rs2Field w) (rd2Field w) = w := by
  have hopBit (k : Nat) (hk : k < 8) : o.code.getLsbD k = w.getLsbD k := by
    rw [← hop, opField, BitVec.getLsbD_extractLsb', decide_eq_true hk, Bool.true_and, Nat.zero_add]
  have htopBit (k : Nat) (hk : 24 ≤ k) (hk' : k < 32) : w.getLsbD k = false := by
    have hbit := congrArg (fun b : BitVec 8 => b.getLsbD (k - 24)) htop
    simpa [BitVec.getLsbD_extractLsb', show k - 24 < 8 by omega, Nat.add_sub_cancel' hk] using hbit
  have hfield (lo k : Nat) (hk : lo ≤ k) (hk' : k < lo + 4) : (regField lo w).val.testBit (k - lo) = w.getLsbD k := by
    rw [testBit_regField lo w (by omega), Nat.add_sub_cancel' hk]
  refine BitVec.eq_of_getLsbD_eq fun k hk => ?_
  rw [getLsbD_assembleWord _ _ _ _ _ k hk]
  split_ifs
  · exact hopBit k ‹_›
  · exact hfield 8 k (by omega) ‹_›
  · exact hfield 12 k (by omega) ‹_›
  · exact hfield 16 k (by omega) ‹_›
  · exact hfield 20 k (by omega) ‹_›
  · exact (htopBit k (by omega) hk).symm

/-- The word of the command that a row's fields name, unused fields 0, is the word they were read from. -/
theorem encode_withFields {w : CommandWord} {o : Opcode} (h : w &&& o.mask = o.pattern) :
    encode (o.withFields w) = w := by
  have hword := assembleWord_fields (opField_of_match h) (topByte_eq_zero_of_match h)
  have unused {lo : Nat} := regField_eq_zero_of_match h (lo := lo)
  cases o with
  | add | sub | mul | div | mod =>
    have hrd2 : rd2Field w = 0 := unused (by decide) (by decide)
    rwa [hrd2] at hword
  | lt =>
    have hrd : rdField w = 0 := unused (by decide) (by decide)
    have hrd2 : rd2Field w = 0 := unused (by decide) (by decide)
    rwa [hrd, hrd2] at hword
  | divmod => exact hword
  | parse =>
    have hrs1 : rs1Field w = 0 := unused (by decide) (by decide)
    have hrs2 : rs2Field w = 0 := unused (by decide) (by decide)
    have hrd2 : rd2Field w = 0 := unused (by decide) (by decide)
    rwa [hrs1, hrs2, hrd2] at hword
  | format =>
    have hrd : rdField w = 0 := unused (by decide) (by decide)
    have hrs2 : rs2Field w = 0 := unused (by decide) (by decide)
    have hrd2 : rd2Field w = 0 := unused (by decide) (by decide)
    rwa [hrd, hrs2, hrd2] at hword

/-- Settles O2: a word that decodes matches the row of its command, so that every bit of it is in a field or 0. -/
theorem encodeDecodeIdentity : Obligations.EncodeDecodeIdentity := by
  intro w i h
  obtain ⟨hmatch, hwf, hfields⟩ := (decode_eq_ok_iff w i).1 h
  refine ⟨hwf, ?_⟩
  have hword := encode_withFields hmatch
  rwa [hfields] at hword

/-- Settles O5: nine fixed words, one for each row. -/
theorem exampleWordsDecode : Obligations.ExampleWordsDecode := by
  unfold Obligations.ExampleWordsDecode
  decide

end Sys2Proof.Machine
end

section
/-! Proofs about the laws of ADD and SUB (`40_kernel.md` R103, R106): they hold of the sum, the difference and their
flags, which are all that the two commands write. -/

namespace Sys2Proof.Machine

/-! ### ADD (`40_kernel.md` R103) -/

theorem sumOf_comm (x y : Magnitude) : sumOf x y = sumOf y x := by
  rw [sumOf, sumOf, Nat.add_comm]

theorem carryOut_comm (x y : Magnitude) : carryOut x y = carryOut y x := by
  rw [carryOut, carryOut, Nat.add_comm]

theorem carryOut_eq_false_iff (x y : Magnitude) : carryOut x y = false ↔ x.toNat + y.toNat < 2 ^ 256 := by
  rw [← Bool.not_eq_true, carryOut_eq_true_iff, Nat.not_le]

/-- Without a carry the low half is the whole sum. -/
theorem sumOf_toNat_of_not_carry {x y : Magnitude} (h : carryOut x y = false) :
    (sumOf x y).toNat = x.toNat + y.toNat := by
  rw [sumOf_toNat, Nat.mod_eq_of_lt ((carryOut_eq_false_iff x y).1 h)]

theorem carryOut_zero (x : Magnitude) : carryOut x 0 = false :=
  (carryOut_eq_false_iff x 0).2 x.isLt

theorem sumOf_zero (x : Magnitude) : sumOf x 0 = x :=
  BitVec.eq_of_toNat_eq (sumOf_toNat_of_not_carry (carryOut_zero x))

/-- Settles O10: ADD's result and CF are the sum and its carry, which have the three laws. -/
theorem addLaws : Obligations.AddLaws := by
  intro rd rs1 rs2 s t ht
  rw [exec_add] at ht
  cases ht
  simp only [readReg_kernelEnd_self, kernelEnd_cf]
  refine ⟨?commutes, ?identity, sumOf_toNat_of_not_carry⟩
  case commutes =>
    intro u hu
    rw [exec_add] at hu
    cases hu
    exact ⟨(readReg_kernelEnd_self ..).trans (sumOf_comm _ _), carryOut_comm _ _⟩
  case identity =>
    intro hzero
    rw [hzero]
    exact ⟨sumOf_zero _, carryOut_zero _⟩

/-! ### SUB (`40_kernel.md` R106) -/

/-- The difference and the subtrahend add up to the minuend modulo `2^256`, borrow or not. -/
theorem differenceOf_add_mod (x y : Magnitude) : ((differenceOf x y).toNat + y.toNat) % 2 ^ 256 = x.toNat := by
  have hx := x.isLt
  have hdifference := differenceOf_toNat x y
  split at hdifference <;> omega

/-- Without a borrow the difference is the exact one. -/
theorem differenceOf_toNat_of_not_borrow {x y : Magnitude} (h : borrowOut x y = false) :
    (differenceOf x y).toNat = x.toNat - y.toNat := by
  have hle := (borrowOut_eq_false_iff x y).1 h
  have hdifference := differenceOf_toNat x y
  rw [if_neg hle.not_gt] at hdifference
  omega

theorem borrowOut_self (x : Magnitude) : borrowOut x x = false := (borrowOut_eq_false_iff x x).2 le_rfl

theorem differenceOf_self (x : Magnitude) : differenceOf x x = 0 :=
  BitVec.eq_of_toNat_eq ((differenceOf_toNat_of_not_borrow (borrowOut_self x)).trans (Nat.sub_self _))

/-- Subtracting a summand from a sum that did not carry does not borrow. -/
theorem borrowOut_sumOf {x y : Magnitude} (h : carryOut x y = false) : borrowOut (sumOf x y) y = false := by
  rw [borrowOut_eq_false_iff, sumOf_toNat_of_not_carry h]
  exact Nat.le_add_left _ _

/-- Subtracting a summand from a sum that did not carry gives the other one. -/
theorem differenceOf_sumOf {x y : Magnitude} (h : carryOut x y = false) : differenceOf (sumOf x y) y = x := by
  apply BitVec.eq_of_toNat_eq
  rw [differenceOf_toNat_of_not_borrow (borrowOut_sumOf h), sumOf_toNat_of_not_carry h, Nat.add_sub_cancel]

/-- Settles O11: SUB's result and CF are the difference and its borrow, which have the laws; LT writes the same
borrow. -/
theorem subLaws : Obligations.SubLaws := by
  intro rd rs1 rs2 s t ht
  rw [exec_sub] at ht
  cases ht
  simp only [readReg_kernelEnd_self, kernelEnd_cf]
  refine ⟨?equal, ?inverse, differenceOf_add_mod _ _, ?lt⟩
  case equal =>
    intro heq
    rw [heq]
    exact ⟨differenceOf_self _, borrowOut_self _⟩
  case inverse =>
    intro a r u hu hcf hsum hsubtrahend
    rw [exec_add] at hu
    cases hu
    rw [readReg_kernelEnd_self] at hsum
    rw [hsum, hsubtrahend]
    exact ⟨differenceOf_sumOf hcf, borrowOut_sumOf hcf⟩
  case lt =>
    intro u hu
    rw [exec_lt] at hu
    cases hu
    rfl

end Sys2Proof.Machine
end

section
/-! Proofs about every command at once: what it may change before it ends (`10_state.md` section 1), that its results
depend on its sources only, and that its errors are precise (`60_exceptions.md` R175). -/

namespace Sys2Proof.Machine

/-! ### What a command writes before it ends -/

/-- The commands that write CF (`10_state.md` R25). -/
def kernelOpcodes : List Opcode := [.add, .sub, .lt, .mul]

/-- `u` is `s` after the writes of `i` that come before its end: destinations, CF, and for FORMAT the text. -/
structure CommandWrites (i : Instr) (s u : State) : Prop where
  rest : u = { s with regs := u.regs, cf := u.cf, tlen := u.tlen, text := u.text }
  regs : RegsSameExcept (destinations i) s u
  text : (∀ rs1, i ≠ .format rs1) → u.text = s.text ∧ u.tlen = s.tlen
  text_wf : s.text.wf → u.text.wf
  cf : i.opcode ∉ kernelOpcodes → u.cf = s.cf

/-- The command ends without an error, with a recoverable error that wrote nothing but PARSE's zero, or with the fatal
one that wrote nothing (`60_exceptions.md` R170 to R172). -/
inductive CommandEnd (i : Instr) (s u : State) : State → Prop
  | completed : CommandEnd i s u (complete u)
  | recoverable (e : ErrorName) (hno : e ≠ .noError) (hdiv : e ≠ .divisionByZero)
      (hprecise : u = s ∨ ∃ rd, i = .parse rd ∧ u = writeReg rd 0 s) : CommandEnd i s u (raiseRecoverable e u)
  | fatal (hprecise : u = s) : CommandEnd i s u (raiseFatal .divisionByZero u)

theorem commandWrites_refl (i : Instr) (s : State) : CommandWrites i s s :=
  ⟨rfl, fun _ _ => rfl, fun _ => ⟨rfl, rfl⟩, id, fun _ => rfl⟩

/-- Writing its destinations is all that a division command and PARSE do. -/
theorem commandWrites_of_regs {i : Instr} {s u : State} (hrest : u = { s with regs := u.regs })
    (hregs : RegsSameExcept (destinations i) s u) : CommandWrites i s u := by
  have htext : u.text = s.text := by rw [hrest]
  have htlen : u.tlen = s.tlen := by rw [hrest]
  have hcf : u.cf = s.cf := by rw [hrest]
  exact ⟨by rw [hrest], hregs, fun _ => ⟨htext, htlen⟩, fun hwf => htext ▸ hwf, fun _ => hcf⟩

/-- Writing its one destination and CF is all that ADD, SUB and MUL do. -/
theorem commandWrites_writeCf_writeReg {i : Instr} {o : Opcode} (ho : i.opcode = o) (hmem : o ∈ kernelOpcodes)
    {rd : RegNum} (hdest : destinations i = [rd]) (v : Magnitude) (c : Bool) (s : State) :
    CommandWrites i s (writeCf c (writeReg rd v s)) :=
  ⟨rfl, hdest ▸ regsSameExcept_writeReg rd v s, fun _ => ⟨rfl, rfl⟩, id, fun hnot => absurd (ho ▸ hmem) hnot⟩

/-- Writing CF is all that LT does. -/
theorem commandWrites_lt (rs1 rs2 : RegNum) (c : Bool) (s : State) : CommandWrites (.lt rs1 rs2) s (writeCf c s) :=
  ⟨rfl, fun _ _ => rfl, fun _ => ⟨rfl, rfl⟩, id, fun hnot => absurd (by decide : Opcode.lt ∈ kernelOpcodes) hnot⟩

theorem commandWrites_format (rs1 : RegNum) (s : State) :
    CommandWrites (.format rs1) s (writeTextOperand (dec (readReg s rs1)) s) where
  rest := by rw [writeTextOperand_eq]
  regs n _ := readReg_writeTextOperand _ s n
  text hnot := absurd rfl (hnot rs1)
  text_wf hwf := writeTexts_wf _ 0 hwf
  cf _ := by rw [writeTextOperand_eq]

/-- All that a command can do, in every state: its own writes, and then one of the three ends. -/
theorem exec_writes (i : Instr) (s : State) :
    ∃ u t, exec i s = .next t ∧ CommandWrites i s u ∧ CommandEnd i s u t := by
  have hwrite (rd : RegNum) (v : Magnitude) := regsSameExcept_writeReg rd v s
  cases i with
  | add rd rs1 rs2 =>
    exact ⟨_, _, rfl, commandWrites_writeCf_writeReg (o := .add) rfl (by decide) rfl _ _ s, .completed⟩
  | sub rd rs1 rs2 =>
    exact ⟨_, _, rfl, commandWrites_writeCf_writeReg (o := .sub) rfl (by decide) rfl _ _ s, .completed⟩
  | mul rd rs1 rs2 =>
    exact ⟨_, _, rfl, commandWrites_writeCf_writeReg (o := .mul) rfl (by decide) rfl _ _ s, .completed⟩
  | lt rs1 rs2 => exact ⟨_, _, rfl, commandWrites_lt rs1 rs2 _ s, .completed⟩
  | mod rd rs1 rs2 => exact ⟨_, _, exec_mod rd rs1 rs2 s, commandWrites_of_regs rfl (hwrite rd _), .completed⟩
  | div rd rs1 rs2 =>
    by_cases hy : readReg s rs2 = 0
    · exact ⟨s, _, exec_div_of_eq_zero hy, commandWrites_refl _ s, .fatal rfl⟩
    · exact ⟨_, _, exec_div_of_ne_zero hy, commandWrites_of_regs rfl (hwrite rd _), .completed⟩
  | divmod rd rd2 rs1 rs2 =>
    by_cases hrd : rd = rd2
    · exact ⟨s, _, exec_divmod_of_eq hrd, commandWrites_refl _ s, .recoverable _ nofun nofun (.inl rfl)⟩
    · by_cases hy : readReg s rs2 = 0
      · exact ⟨s, _, exec_divmod_of_eq_zero hrd hy, commandWrites_refl _ s, .fatal rfl⟩
      · exact ⟨_, _, exec_divmod_of_ne_zero hrd hy,
          commandWrites_of_regs rfl (regsSameExcept_writeReg_writeReg _ _ _ _ _), .completed⟩
  | parse rd =>
    rcases hp : parseText (textOperand s) with e | v
    · have he : e ≠ .noError ∧ e ≠ .divisionByZero := by
        rcases parseText_error_cases hp with rfl | rfl | rfl <;> decide
      exact ⟨_, _, exec_parse_of_error hp, commandWrites_of_regs rfl (hwrite rd 0),
        .recoverable e he.1 he.2 (.inr ⟨rd, rfl, rfl⟩)⟩
    · exact ⟨_, _, exec_parse_of_ok hp, commandWrites_of_regs rfl (hwrite rd v), .completed⟩
  | format rs1 => exact ⟨_, _, exec_format rs1 s, commandWrites_format rs1 s, .completed⟩

/-- The writes and the end of a command that answers `t`. -/
theorem exec_writes_of_next {i : Instr} {s t : State} (h : exec i s = .next t) :
    ∃ u, CommandWrites i s u ∧ CommandEnd i s u t := by
  obtain ⟨u, t', ht', hwrites, hend⟩ := exec_writes i s
  cases ht'.symm.trans h
  exact ⟨u, hwrites, hend⟩

/-! ### What the end of a command keeps -/

section
variable {i : Instr} {s u t : State}

theorem CommandEnd.regs_eq (h : CommandEnd i s u t) : t.regs = u.regs := by cases h <;> rfl
theorem CommandEnd.cf_eq (h : CommandEnd i s u t) : t.cf = u.cf := by cases h <;> rfl
theorem CommandEnd.text_eq (h : CommandEnd i s u t) : t.text = u.text := by cases h <;> rfl
theorem CommandEnd.tlen_eq (h : CommandEnd i s u t) : t.tlen = u.tlen := by cases h <;> rfl

theorem CommandEnd.commandEnded (h : CommandEnd i s u t) (hw : CommandWrites i s u) : CommandEnded s t := by
  cases h <;> rw [hw.rest] <;> exact ⟨rfl, rfl, rfl, rfl, rfl, rfl⟩

/-- A command that leaves ERR other than 0 wrote nothing, or PARSE's zero (`60_exceptions.md` R175). -/
theorem CommandEnd.precise_of_err (h : CommandEnd i s u t) (herr : t.err ≠ 0) :
    u = s ∨ ∃ rd, i = .parse rd ∧ u = writeReg rd 0 s := by
  cases h with
  | completed => exact absurd rfl herr
  | recoverable e hno hdiv hprecise => exact hprecise
  | fatal hprecise => exact .inl hprecise

end

/-- Settles O23: a command writes and then ends, and FATAL rises with the fatal end only. -/
theorem commandsChangeOnlyDestinations : Obligations.CommandsChangeOnlyDestinations := by
  intro i s
  obtain ⟨u, t, ht, hwrites, hend⟩ := exec_writes i s
  refine ⟨t, ht, hend.commandEnded hwrites, ?regs, ?text, ?fatal⟩
  case regs => exact fun n hn => (readReg_congr hend.regs_eq n).trans (hwrites.regs n hn)
  case text =>
    intro hi
    rw [hend.text_eq, hend.tlen_eq]
    exact hwrites.text hi
  case fatal =>
    intro hfatal hfatal'
    have hkept : u.fatal = s.fatal := by rw [hwrites.rest]
    cases hend with
    | completed | recoverable => exact absurd (hkept.symm.trans hfatal) (by simp [hfatal'])
    | fatal => rfl

/-- Settles O25: only a kernel command's own writes reach CF. -/
theorem onlyKernelCommandsWriteCf : Obligations.OnlyKernelCommandsWriteCf := by
  intro i s t ht hi
  obtain ⟨u, hwrites, hend⟩ := exec_writes_of_next ht
  exact hend.cf_eq.trans (hwrites.cf hi)

/-- A completion is, in every state alike, the error of an illegal word or the meaning of the word's command
(`30_encoding.md` R86). -/
theorem completeCommand_illegal_or_exec (c : InFlight) :
    (∀ s, completeCommand c s = .next (raiseRecoverable .illegalCommand s)) ∨
      ∃ i, c.illegalHi = false ∧ decode c.cur = .ok i ∧ ∀ s, completeCommand c s = exec i s := by
  by_cases hhi : c.illegalHi = true
  · exact .inl fun _ => completeCommand_of_illegal (.inl hhi)
  · have hhi' : c.illegalHi = false := by simpa using hhi
    rcases hd : decode c.cur with e | i
    · exact .inl fun _ => completeCommand_of_illegal (.inr ⟨e, hd⟩)
    · exact .inr ⟨i, hhi', rfl, fun _ => completeCommand_of_decode hhi' hd⟩

/-- What a completion that leaves an error leaves alone: the frame of R175 on a state that has PARSE's zero at most. -/
theorem exec_precise {i : Instr} {s t : State} (h : exec i s = .next t) (herr : t.err ≠ 0) :
    CommandEnded s t ∧ t.text = s.text ∧ t.tlen = s.tlen ∧ t.cf = s.cf ∧
      ∀ n, readReg t n = readReg s n ∨ (readReg t n = 0 ∧ i = .parse n) := by
  obtain ⟨u, hwrites, hend⟩ := exec_writes_of_next h
  have hreg (n : RegNum) : readReg t n = readReg u n := readReg_congr hend.regs_eq n
  refine ⟨hend.commandEnded hwrites, ?_⟩
  rw [hend.text_eq, hend.tlen_eq, hend.cf_eq]
  rcases hend.precise_of_err herr with rfl | ⟨rd, rfl, rfl⟩
  · exact ⟨rfl, rfl, rfl, fun n => .inl (hreg n)⟩
  · refine ⟨rfl, rfl, rfl, fun n => ?_⟩
    rw [hreg, readReg_writeReg]
    split
    · next hn => exact .inr ⟨rfl, congrArg Instr.parse hn⟩
    · exact .inl rfl

/-- Settles O26: an illegal word ends on the state as it is, and any other by its command, whose errors are precise. -/
theorem errorsArePrecise : Obligations.ErrorsArePrecise := by
  intro c s t ht herr
  rcases completeCommand_illegal_or_exec c with hillegal | ⟨i, hhi, hdecode, hexec⟩
  · rw [hillegal] at ht
    cases ht
    exact ⟨⟨rfl, rfl, rfl, rfl, rfl, rfl⟩, rfl, rfl, rfl, fun n => .inl rfl⟩
  · rw [hexec] at ht
    obtain ⟨hended, htext, htlen, hcf, hregs⟩ := exec_precise ht herr
    refine ⟨hended, htext, htlen, hcf, fun n => (hregs n).imp_right ?_⟩
    rintro ⟨hzero, rfl⟩
    exact ⟨hzero, hhi, hdecode⟩

/-! ### Two runs of one command (`10_state.md` section 1) -/

/-- What a command shows of its results is in `t` as in `t'`. -/
def SameResults (i : Instr) (t t' : State) : Prop :=
  t.err = t'.err ∧ (t.err = 0 → ∀ n ∈ destinations i, readReg t n = readReg t' n) ∧
    (i.opcode ∈ kernelOpcodes → t.cf = t'.cf) ∧ (∀ rs1, i = .format rs1 → textOperand t = textOperand t')

/-- The commands that write neither CF nor the text. -/
def registerOpcodes : List Opcode := [.div, .mod, .divmod, .parse]

theorem opcode_not_mem_kernelOpcodes {i : Instr} {o : Opcode} (ho : i.opcode = o) (hmem : o ∈ registerOpcodes) :
    i.opcode ∉ kernelOpcodes := by
  rw [ho]
  exact (by decide : ∀ o ∈ registerOpcodes, o ∉ kernelOpcodes) o hmem

theorem ne_format_of_opcode {i : Instr} {o : Opcode} (ho : i.opcode = o) (hmem : o ∈ registerOpcodes) (rs1 : RegNum) :
    i ≠ .format rs1 := by
  rintro rfl
  subst ho
  exact absurd hmem (by decide : Opcode.format ∉ registerOpcodes)

/-- ADD, SUB and MUL show the value and the flag that they end with. -/
theorem sameResults_kernelEnd {i : Instr} {rd : RegNum} (hdest : destinations i = [rd]) (hi : ∀ rs1, i ≠ .format rs1)
    (v : Magnitude) (c : Bool) (s s' : State) : SameResults i (kernelEnd rd v c s) (kernelEnd rd v c s') := by
  refine ⟨rfl, fun _ n hn => ?_, fun _ => rfl, fun rs1 h => absurd h (hi rs1)⟩
  rw [hdest, List.mem_singleton] at hn
  subst hn
  rw [readReg_kernelEnd_self, readReg_kernelEnd_self]

/-- A command that writes no CF and no text shows the values in its destinations. -/
theorem sameResults_complete {i : Instr} {o : Opcode} (ho : i.opcode = o) (hmem : o ∈ registerOpcodes) {u u' : State}
    (h : ∀ n ∈ destinations i, readReg u n = readReg u' n) : SameResults i (complete u) (complete u') :=
  ⟨rfl, fun _ => h, fun hkernel => absurd hkernel (opcode_not_mem_kernelOpcodes ho hmem),
    fun rs1 h => absurd h (ne_format_of_opcode ho hmem rs1)⟩

/-- A command that ends with the same error in both states shows nothing else. -/
theorem sameResults_of_error {i : Instr} {o : Opcode} (ho : i.opcode = o) (hmem : o ∈ registerOpcodes) {t t' : State}
    (herr : t.err = t'.err) (h0 : t.err ≠ 0) : SameResults i t t' :=
  ⟨herr, fun h => absurd h h0, fun hkernel => absurd hkernel (opcode_not_mem_kernelOpcodes ho hmem),
    fun rs1 h => absurd h (ne_format_of_opcode ho hmem rs1)⟩

theorem readReg_writeReg_mem_singleton {n rd : RegNum} (hn : n ∈ [rd]) (v : Magnitude) (s s' : State) :
    readReg (writeReg rd v s) n = readReg (writeReg rd v s') n := by
  rw [List.mem_singleton.1 hn, readReg_writeReg_self, readReg_writeReg_self]

/-- The state that a command ends in shows what the source registers and the source text decide. -/
theorem exec_sameResults (i : Instr) {s s' t t' : State} (ht : exec i s = .next t) (ht' : exec i s' = .next t')
    (hsources : ∀ n ∈ sources i, readReg s n = readReg s' n) (htext : sourceText i s = sourceText i s') :
    SameResults i t t' := by
  cases i with
  | add rd rs1 rs2 | sub rd rs1 rs2 | mul rd rs1 rs2 =>
    have hx := hsources rs1 (by simp [sources])
    have hy := hsources rs2 (by simp [sources])
    simp only [exec_add, exec_sub, exec_mul, ← hx, ← hy] at ht ht'
    cases ht
    cases ht'
    exact sameResults_kernelEnd rfl (fun _ => Instr.noConfusion) _ _ s s'
  | lt rs1 rs2 =>
    have hx := hsources rs1 (by simp [sources])
    have hy := hsources rs2 (by simp [sources])
    simp only [exec_lt, ← hx, ← hy] at ht ht'
    cases ht
    cases ht'
    exact ⟨rfl, fun _ => nofun, fun _ => rfl, nofun⟩
  | mod rd rs1 rs2 =>
    have hx := hsources rs1 (by simp [sources])
    have hy := hsources rs2 (by simp [sources])
    simp only [exec_mod, ← hx, ← hy] at ht ht'
    cases ht
    cases ht'
    exact sameResults_complete (o := .mod) rfl (by decide) fun n hn => readReg_writeReg_mem_singleton hn _ s s'
  | div rd rs1 rs2 =>
    have hx := hsources rs1 (by simp [sources])
    have hy := hsources rs2 (by simp [sources])
    by_cases hzero : readReg s rs2 = 0
    · rw [exec_div_of_eq_zero hzero] at ht
      rw [exec_div_of_eq_zero (hy ▸ hzero)] at ht'
      cases ht
      cases ht'
      exact sameResults_of_error (o := .div) rfl (by decide) rfl (show ErrorName.divisionByZero.code ≠ 0 by decide)
    · rw [exec_div_of_ne_zero hzero] at ht
      rw [exec_div_of_ne_zero (hy ▸ hzero), ← hx, ← hy] at ht'
      cases ht
      cases ht'
      exact sameResults_complete (o := .div) rfl (by decide) fun n hn => readReg_writeReg_mem_singleton hn _ s s'
  | divmod rd rd2 rs1 rs2 =>
    have hx := hsources rs1 (by simp [sources])
    have hy := hsources rs2 (by simp [sources])
    by_cases hrd : rd = rd2
    · rw [exec_divmod_of_eq hrd] at ht ht'
      cases ht
      cases ht'
      exact sameResults_of_error (o := .divmod) rfl (by decide) rfl (show ErrorName.illegalCommand.code ≠ 0 by decide)
    · by_cases hzero : readReg s rs2 = 0
      · rw [exec_divmod_of_eq_zero hrd hzero] at ht
        rw [exec_divmod_of_eq_zero hrd (hy ▸ hzero)] at ht'
        cases ht
        cases ht'
        exact sameResults_of_error (o := .divmod) rfl (by decide) rfl (show ErrorName.divisionByZero.code ≠ 0 by decide)
      · rw [exec_divmod_of_ne_zero hrd hzero] at ht
        rw [exec_divmod_of_ne_zero hrd (hy ▸ hzero), ← hx, ← hy] at ht'
        cases ht
        cases ht'
        refine sameResults_complete (o := .divmod) rfl (by decide) fun n hn => ?_
        rcases List.mem_pair.1 hn with rfl | rfl
        · rw [readReg_writeReg_writeReg_fst hrd, readReg_writeReg_writeReg_fst hrd]
        · rw [readReg_writeReg_self, readReg_writeReg_self]
  | parse rd =>
    have htext' : textOperand s = textOperand s' := htext
    rcases hp : parseText (textOperand s) with e | v
    · rw [exec_parse_of_error hp] at ht
      rw [exec_parse_of_error (htext' ▸ hp)] at ht'
      cases ht
      cases ht'
      refine sameResults_of_error (o := .parse) rfl (by decide) rfl (show e.code ≠ 0 from ?_)
      rcases parseText_error_cases hp with rfl | rfl | rfl <;> decide
    · rw [exec_parse_of_ok hp] at ht
      rw [exec_parse_of_ok (htext' ▸ hp)] at ht'
      cases ht
      cases ht'
      exact sameResults_complete (o := .parse) rfl (by decide) fun n hn => readReg_writeReg_mem_singleton hn v s s'
  | format rs1 =>
    have hx := hsources rs1 (by simp [sources])
    rw [exec_format] at ht ht'
    rw [← hx] at ht'
    cases ht
    cases ht'
    exact ⟨rfl, fun _ => nofun, fun hmem => absurd hmem (by decide : Opcode.format ∉ kernelOpcodes), fun _ _ =>
      (textOperand_format _ s).trans (textOperand_format _ s').symm⟩

/-- Settles O24: what a command shows of its results is what its sources decide. -/
theorem resultsDependOnlyOnSources : Obligations.ResultsDependOnlyOnSources := fun i _ _ _ _ ht ht' =>
  exec_sameResults i ht ht'

end Sys2Proof.Machine
end

section
/-! Proofs about the window while the core is idle and while it is BUSY (`10_state.md` R21, R27, R30, R32,
`20_memory.md` R50, R53, R55, R57, R63). -/

namespace Sys2Proof.Machine

/-! ### Accesses to an idle core -/

/-- An idle core returns the value at every place. -/
theorem event_read_of_idle {off : Offset} {r : WindowReg} (hok : accessOk off 8 = true) (hr : windowReg off = r)
    {s : State} (hidle : s.busy = false) : event (.read off 8) s = .next (returnWord (windowValue s r) s) := by
  rw [event_read hok]
  rcases hostRead_cases off s with ⟨-, hbusy, -⟩ | ⟨hread, -⟩
  · rw [hidle] at hbusy
    cases hbusy
  · rw [hread, hr]

theorem whenIdle_of_idle {s : State} (hidle : s.busy = false) (f : State → State) : whenIdle f s = f s := by
  simp only [whenIdle, hidle, Bool.false_eq_true, if_false]

theorem event_write_tlen_of_idle {s : State} (hidle : s.busy = false) (w : Limb) :
    event (.write 0x020 8 w) s = .next (writeTlen (w.setWidth 8) s) := by
  have hr : windowReg 0x020 = .tlen := by decide
  rw [event_write (by decide)]
  simp only [hostWrite, hr, whenIdle_of_idle hidle]

theorem event_write_text_of_idle {s : State} (hidle : s.busy = false) (k : Fin 32) (w : Limb) :
    event (.write (textOffset k) 8 w) s = .next (writeTextWord k w s) := by
  rw [event_write (accessOk_textOffset k)]
  simp only [hostWrite, windowReg_textOffset, whenIdle_of_idle hidle]

theorem event_write_limb_of_idle {s : State} (hidle : s.busy = false) (n : Fin 16) (j : Fin 4) (w : Limb) :
    event (.write (limbOffset n j) 8 w) s = .next (writeLimb n j w s) := by
  rw [event_write (accessOk_limbOffset n j)]
  simp only [hostWrite, windowReg_limbOffset, whenIdle_of_idle hidle]

theorem event_read_tlen_of_idle {s : State} (hidle : s.busy = false) :
    event (.read 0x020 8) s = .next (returnWord (s.tlen.setWidth 64) s) :=
  event_read_of_idle (r := .tlen) (by decide) (by decide) hidle

theorem event_read_text_of_idle {s : State} (hidle : s.busy = false) (k : Fin 32) :
    event (.read (textOffset k) 8) s = .next (returnWord (readTextWord s k) s) :=
  event_read_of_idle (accessOk_textOffset k) (windowReg_textOffset k) hidle

theorem event_read_limb_of_idle {s : State} (hidle : s.busy = false) (n : Fin 16) (j : Fin 4) :
    event (.read (limbOffset n j) 8) s = .next (returnWord (limb (readReg s n) j) s) :=
  event_read_of_idle (accessOk_limbOffset n j) (windowReg_limbOffset n j) hidle

/-! ### STATUS and TLEN -/

/-- Each bit of the STATUS word (`10_state.md` R27). -/
theorem getLsbD_statusWord (s : State) (k : Nat) : (statusWord s).getLsbD k =
    if k = 0 then s.busy else if k = 1 then s.cf else if k = 2 then s.fatal else if k = 3 then s.haz
    else decide (8 ≤ k) && s.err.getLsbD (k - 8) := by
  have h : (statusWord s).getLsbD k = (0#48 ++ s.err ++ 0#4 ++ BitVec.ofBool s.haz ++ BitVec.ofBool s.fatal ++
    BitVec.ofBool s.cf ++ BitVec.ofBool s.busy : BitVec (48 + 8 + 4 + 1 + 1 + 1 + 1)).getLsbD k := rfl
  rw [h]
  simp only [BitVec.getLsbD_append, BitVec.getLsbD_zero, BitVec.getLsbD_ofBool]
  rcases Nat.lt_or_ge k 8 with hk | hk
  · interval_cases k <;> simp
  · obtain ⟨j, rfl⟩ := Nat.exists_eq_add_of_le' hk
    have hbeyond : 8 ≤ j → s.err.getLsbD j = false := BitVec.getLsbD_of_ge _ _
    grind

/-- Settles O29: STATUS is a place that BUSY does not guard and that takes no writes, and its word is read bit by
bit. -/
theorem statusReadFields : Obligations.StatusReadFields := by
  intro s w
  have hok : accessOk 0x008 8 = true := by decide
  have hstatus : windowReg 0x008 = .status := by decide
  refine ⟨?ignored, statusWord s, event_read_of_not_guarded hok hstatus rfl s, ?_⟩
  case ignored => rw [event_write hok, hostWrite_of_not_writable (.inr (.inl hstatus))]
  have hbit := getLsbD_statusWord s
  refine ⟨hbit 0, hbit 1, hbit 2, hbit 3, ?reserved, ?err, ?high⟩
  case reserved =>
    refine BitVec.eq_of_getLsbD_eq fun k hk => ?_
    rw [BitVec.getLsbD_extractLsb', hbit]
    interval_cases k <;> simp
  case err =>
    refine BitVec.eq_of_getLsbD_eq fun k hk => ?_
    rw [BitVec.getLsbD_extractLsb', hbit]
    interval_cases k <;> simp
  case high =>
    refine BitVec.eq_of_getLsbD_eq fun k _ => ?_
    rw [BitVec.getLsbD_extractLsb', hbit, if_neg (by omega), if_neg (by omega), if_neg (by omega), if_neg (by omega),
      BitVec.getLsbD_of_ge s.err _ (by omega)]
    simp

/-- Settles O32: TLEN is a guarded place; idle it is written and read with the width changed, BUSY the write is
dropped. -/
theorem tlenReadWrite : Obligations.TlenReadWrite := by
  refine ⟨rfl, fun s w => ⟨fun hidle => ⟨?write, _, event_read_tlen_of_idle hidle, ?low, ?high⟩, fun hbusy => ?dropped⟩⟩
  case write => rw [event_write_tlen_of_idle hidle, BitVec.setWidth_eq_extractLsb' (by decide)]; rfl
  case low =>
    rw [← BitVec.setWidth_eq_extractLsb' (by decide), BitVec.setWidth_setWidth_of_le _ (by decide), BitVec.setWidth_eq]
  case high =>
    refine BitVec.eq_of_getLsbD_eq fun k _ => ?_
    rw [BitVec.getLsbD_extractLsb', BitVec.getLsbD_setWidth, BitVec.getLsbD_of_ge s.tlen _ (by omega)]
    simp
  case dropped => rw [event_write (by decide), hostWrite_of_guarded_of_busy (by decide) hbusy]; rfl

/-! ### T and V -/

/-- Byte `i` of the word that the window returns for `T[8k..8k+7]` (`20_memory.md` R53). -/
theorem wordByte_readTextWord (s : State) (k : Fin 32) {i : Nat} (hi : i < 8) :
    wordByte (readTextWord s k) i = readText s (8 * k.val + i) := by
  rw [readTextWord, wordByte_ofBytes _ _ _ _ _ _ _ _ i hi]
  interval_cases i <;> rfl

/-- A write of a word of T is seen at its eight bytes, and nowhere else. -/
theorem readText_writeTextWord (k : Fin 32) (w : Limb) (s : State) (a : Nat) :
    readText (writeTextWord k w s) a =
      if 8 * k.val ≤ a ∧ a < 8 * k.val + 8 then wordByte w (a - 8 * k.val) else readText s a := by
  rw [writeTextWord, readText_writeTexts]
  by_cases ha : 8 * k.val ≤ a ∧ a < 8 * k.val + 8
  · have hlisted : 8 * k.val ≤ a ∧ a - 8 * k.val < ((List.range 8).map (wordByte w)).length ∧ a < 256 := by
      simp only [List.length_map, List.length_range]; omega
    rw [dif_pos hlisted, if_pos ha, List.getElem_map, List.getElem_range]
  · have hlisted : ¬ (8 * k.val ≤ a ∧ a - 8 * k.val < ((List.range 8).map (wordByte w)).length ∧ a < 256) := by
      simp only [List.length_map, List.length_range]; omega
    rw [dif_neg hlisted, if_neg ha]

/-- Settles O33: the word at `0x100 + 8k` is the eight bytes from `T[8k]` on, both ways. -/
theorem textWordsAreLittleEndian : Obligations.TextWordsAreLittleEndian := by
  intro s k w hk hidle
  let place : Fin 32 := ⟨k, hk⟩
  have hwritten := readText_writeTextWord place w s
  refine ⟨⟨_, event_read_text_of_idle hidle place, fun i hi => wordByte_readTextWord s place hi⟩,
    _, event_write_text_of_idle hidle place w, ?bytes, ?others, writeTextWord_eq place w s⟩
  case bytes =>
    intro i hi
    rw [hwritten, if_pos ⟨Nat.le_add_right _ _, Nat.add_lt_add_left hi _⟩]
    exact congrArg (wordByte w) (Nat.add_sub_cancel_left _ _)
  case others =>
    intro a ha
    rw [hwritten, if_neg (show ¬ (8 * k ≤ a ∧ a < 8 * k + 8) by omega)]

/-- Each limb of `Vn` after limb `j` was written. -/
theorem limb_readReg_writeLimb (n : Fin 16) (i j : Fin 4) (w : Limb) (s : State) :
    limb (readReg (writeLimb n j w s) n) i = if i = j then w else limb (readReg s n) i := by
  rw [writeLimb, readReg_writeReg_self, limb_setLimb]

/-- Settles O34: the word at `0x200 + 0x20·n + 0x8·j` is limb `j` of `Vn`, both ways. -/
theorem limbsReadWrite : Obligations.LimbsReadWrite := by
  intro s n j w hidle
  refine ⟨event_read_limb_of_idle hidle n j, _, event_write_limb_of_idle hidle n j w, ?written, ?others,
    regsSameExcept_writeReg n _ s, writeLimb_eq n j w s⟩
  case written => exact (limb_readReg_writeLimb n j j w s).trans (if_pos rfl)
  case others => exact fun i hi => (limb_readReg_writeLimb n i j w s).trans (if_neg hi)

/-! ### Which accesses the window takes -/

/-- Settles O36: the test of an access is the width and the alignment. -/
theorem onlyAlignedWordAccesses : Obligations.OnlyAlignedWordAccesses := by
  intro s off width w
  rw [← accessOk_iff]
  refine ⟨fun hok => ⟨⟨_, event_read hok⟩, _, event_write hok⟩, fun hbad => ?_⟩
  simp only [event, if_neg hbad, and_self]

/-- Settles O45: a read returns a word or a draw. -/
theorem readsHaveNoSideEffect : Obligations.ReadsHaveNoSideEffect := by
  intro s t off width h
  by_cases hok : accessOk off width = true
  · rw [event_read hok] at h
    cases h
    rcases hostRead_cases off s with ⟨hdraw, -, -⟩ | ⟨hword, -⟩
    · exact ⟨_, by rw [hdraw]; rfl⟩
    · exact ⟨_, by rw [hword]; rfl⟩
  · simp only [event, if_neg hok] at h
    cases h

/-- Settles O58: an offset is below 4096, so that the base plus it is in the window and gives it back. -/
theorem windowAtBase : Obligations.WindowAtBase := by
  refine ⟨Nat.mul_mod_right _ _, fun off => ?inside, fun a ha => if_neg (by omega)⟩
  case inside =>
    have hoff : off.toNat < 4096 := off.isLt
    rw [windowOffset, if_pos (by omega), Nat.add_sub_cancel_left, BitVec.ofNat_toNat, BitVec.setWidth_eq]

/-! ### Accesses while BUSY (`20_memory.md` R63) -/

/-- A read of V, T or TLEN while BUSY returns a draw. -/
theorem event_read_of_guarded_of_busy {off : Offset} (hok : accessOk off 8 = true)
    (hguarded : (windowReg off).guarded = true) {s : State} (hbusy : s.busy = true) :
    event (.read off 8) s = .next (returnDraw s) := by
  rw [event_read hok]
  rcases hostRead_cases off s with ⟨h, -⟩ | ⟨-, hnot⟩
  · rw [h]
  · exact absurd ⟨hbusy, hguarded⟩ hnot

/-- The aligned offsets that are neither CMD nor guarded: ID, STATUS, CTRL and the reserved ones. -/
theorem unguarded_offset_cases {off : Offset} (haligned : off.toNat % 8 = 0)
    (hrange : off.toNat < 0x018 ∨ (0x028 ≤ off.toNat ∧ off.toNat < 0x100) ∨ 0x400 ≤ off.toNat) :
    off = 0x000 ∨ off = 0x008 ∨ off = 0x010 ∨ windowReg off = .reserved := by
  have hoff (o : Offset) (h : off.toNat = o.toNat) : off = o := BitVec.eq_of_toNat_eq h
  rw [windowReg_eq_reserved_iff]
  rcases hrange with hlow | hreserved
  · have hthree : off.toNat = 0x000 ∨ off.toNat = 0x008 ∨ off.toNat = 0x010 := by omega
    exact hthree.imp (hoff 0x000) (.imp (hoff 0x008) fun h => .inl (hoff 0x010 h))
  · exact .inr (.inr (.inr hreserved))

/-- Settles O37: the map puts each offset at a guarded place, at CMD, or at one of the places that behave as when
idle. -/
theorem busyAccesses : Obligations.BusyAccesses := by
  intro s off w hbusy haligned
  have hok : accessOk off 8 = true := (accessOk_iff off 8).2 ⟨rfl, haligned⟩
  have hread {r : WindowReg} (hr : windowReg off = r) (hg : r.guarded = false) :=
    event_read_of_not_guarded hok hr hg s
  refine ⟨?dropped, ?draw, ?cmd, ?unguarded⟩
  case dropped =>
    intro hrange
    have hdrop : WriteDropped off s := hrange.imp (⟨·, .inl hbusy⟩) (⟨haligned, ·, hbusy⟩)
    rw [event_write hok, hostWrite_of_writeDropped haligned hdrop]
    rfl
  case draw =>
    intro hrange
    exact event_read_of_guarded_of_busy hok ((windowReg_guarded_iff off).2 (by omega)) hbusy
  case cmd => exact fun hcmd => hread ((windowReg_eq_cmd_iff off).2 (by omega)) rfl
  case unguarded =>
    intro hrange
    rw [event_write hok]
    rcases unguarded_offset_cases haligned hrange with rfl | rfl | rfl | hr
    · have hr : windowReg 0x000 = .id := by decide
      exact ⟨by rw [hostWrite_of_not_writable (.inl hr)]; rfl, _, hread hr rfl, fun _ => rfl, nofun, by simp⟩
    · have hr : windowReg 0x008 = .status := by decide
      exact ⟨by rw [hostWrite_of_not_writable (.inr (.inl hr))]; rfl, _, hread hr rfl, nofun, fun _ => rfl, by simp⟩
    · have hr : windowReg 0x010 = .ctrl := by decide
      exact ⟨by rw [hostWrite_of_ctrl hr]; rfl, _, hread hr rfl, nofun, nofun, fun _ _ => rfl⟩
    · have hnot := (windowReg_eq_reserved_iff off).1 hr
      refine ⟨?_, _, hread hr rfl, by omega, by omega, fun _ _ => rfl⟩
      rw [hostWrite_of_not_writable (.inr (.inr hr)), if_neg (by omega)]

end Sys2Proof.Machine
end

section
/-! Proofs about resets and about what every step keeps: the state after a reset (`70_reset_and_hazards.md` R200), the
queue, the invariant (`60_exceptions.md` R172), and how a step can stop. -/

namespace Sys2Proof.Machine

/-! ### Resets -/

/-- Each limb after the `k`-th hard reset (`10_state.md` R23). -/
theorem limb_drawnRegs (k : Nat) (n : Fin 16) (j : Fin 4) : limb (drawnRegs k)[n] j = Config.registerDraw k n j := by
  rw [drawnRegs, Fin.getElem_fin, Vector.getElem_ofFn, limb_ofLimbs]
  fin_cases j <;> rfl

/-- Settles O46: V and T of the reset state are the draws of the first hard reset. -/
theorem resetState : Obligations.ResetState :=
  ⟨rfl, rfl, rfl, rfl, rfl, rfl, rfl, limb_drawnRegs 0, fun _ => rfl⟩

/-- Settles O47: V and T after the reset are the draws of the counter's next value. -/
theorem hardResetFromAnyState : Obligations.HardResetFromAnyState := fun s =>
  ⟨_, rfl, rfl, rfl, rfl, rfl, rfl, rfl, rfl, limb_drawnRegs (s.resets + 1), fun _ => rfl⟩

/-! ### The queue (`20_memory.md` R60) -/

theorem completeCommand_pending {c : InFlight} {s t : State} (h : completeCommand c s = .next t) :
    t.pending = s.pending := by
  obtain ⟨u, hend, hu⟩ := completeCommand_cases c s
  have hpending : u.pending = s.pending := by rw [hu]
  rcases hend with hend | ⟨e, -, -, hend⟩ | hend <;> cases hend.symm.trans h <;> exact hpending

theorem coreCycle_pending {s t : State} (h : coreCycle s = .next t) : t.pending = s.pending := by
  rcases coreCycle_cases s with ⟨-, hc⟩ | ⟨c, -, -, hc⟩ | ⟨c, -, -, hc⟩
  · cases hc.symm.trans h; rfl
  · cases hc.symm.trans h; rfl
  · exact completeCommand_pending (hc.symm.trans h)

theorem hostRead_pending (off : Offset) (s : State) : (hostRead off s).pending = s.pending := by
  rcases hostRead_cases off s with ⟨h, -⟩ | ⟨h, -⟩ <;> rw [h]
  · exact returnDraw_pending s
  · exact returnWord_pending s _

theorem hostWrite_pending (off : Offset) (w : Limb) (s : State) : (hostWrite off w s).pending = s.pending := by
  rcases hostWrite_cases off w s with ⟨h, -⟩ | ⟨-, -, h⟩ | ⟨-, -, -, h⟩ | ⟨h, -⟩ | ⟨-, -, -, h⟩ |
    ⟨-, -, h | ⟨k, -, h⟩ | ⟨n, j, -, h⟩⟩ <;> rw [h]
  · exact softReset_pending s
  · exact clearHaz_pending s
  · exact dropWrite_pending s
  · exact acceptCommand_pending s w
  · exact writeTlen_pending s _
  · rw [writeTextWord_eq]
  · rw [writeLimb_eq]

/-- No event adds another one to the queue or takes one from it. -/
theorem event_pending {e : HostEvent} {s t : State} (h : event e s = .next t) : t.pending = s.pending := by
  rcases event_cases e s with ⟨off, -, -, he⟩ | ⟨off, w, -, -, he⟩ | ⟨-, he⟩ | ⟨-, he⟩ | ⟨_, _, -, -, he⟩ <;>
    rw [he] at h
  · cases h; exact hostRead_pending off s
  · cases h; exact hostWrite_pending off w s
  · exact coreCycle_pending h
  · cases h; exact hardReset_pending s
  · cases h

/-- Settles O43: a step is the oldest event on the state without it, and that event leaves the queue alone. -/
theorem eventsTakeEffectInOrder : Obligations.EventsTakeEffectInOrder := by
  intro s t h
  rcases hp : s.pending with _ | ⟨e, rest⟩
  · rw [step_of_nil hp] at h
    exact ⟨(coreCycle_pending h).trans hp, nofun, fun _ => h⟩
  · rw [step_of_cons hp] at h
    refine ⟨event_pending h, ?_, nofun⟩
    rintro e' rest' heq
    cases heq
    exact h

/-! ### How a step can stop -/

theorem completeCommand_next (c : InFlight) (s : State) : ∃ t, completeCommand c s = .next t := by
  obtain ⟨u, h | ⟨e, -, -, h⟩ | h, -⟩ := completeCommand_cases c s <;> exact ⟨_, h⟩

theorem coreCycle_next (s : State) : ∃ t, coreCycle s = .next t := by
  rcases coreCycle_cases s with ⟨-, h⟩ | ⟨c, -, -, h⟩ | ⟨c, -, -, h⟩
  · exact ⟨_, h⟩
  · exact ⟨_, h⟩
  · rw [h]
    exact completeCommand_next c s

/-- Settles O44: every event but a bad access answers a next state, and so does every core cycle. -/
theorem stepsStopOnlyOnBadAccesses : Obligations.StepsStopOnlyOnBadAccesses := by
  intro s
  rcases hp : s.pending with _ | ⟨e, rest⟩
  · rw [step_of_nil hp]
    exact .inl (coreCycle_next s)
  · rw [step_of_cons hp]
    rcases event_cases e { s with pending := rest } with ⟨off, -, -, he⟩ | ⟨off, w, -, -, he⟩ | ⟨-, he⟩ | ⟨-, he⟩ |
      ⟨off, width, hbad, haccess, he⟩
    · exact .inl ⟨_, he⟩
    · exact .inl ⟨_, he⟩
    · rw [he]
      exact .inl (coreCycle_next _)
    · exact .inl ⟨_, he⟩
    · refine .inr ⟨off, width, rest, hbad, he, haccess.imp ?_ ?_⟩
      · rintro rfl; rfl
      · rintro ⟨w, rfl⟩; exact ⟨w, rfl⟩

/-! ### The invariant -/

/-- Settles O48: the reset state has code 0, no command in flight and no listed byte. -/
theorem resetMeetsInvariant : Obligations.ResetMeetsInvariant where
  text_wf := nil_wf
  err_produced := by decide
  fatal_iff := by decide
  fatal_idle := nofun
  remaining_pos := nofun

/-- The invariant speaks of T, ERR, FATAL and the command in flight only. -/
theorem CoreInv.congr {s t : State} (h : CoreInv s) (htext : t.text = s.text) (herr : t.err = s.err)
    (hfatal : t.fatal = s.fatal) (hinFlight : t.inFlight = s.inFlight) : CoreInv t where
  text_wf := htext ▸ h.text_wf
  err_produced := herr ▸ h.err_produced
  fatal_iff := by rw [hfatal, herr]; exact h.fatal_iff
  fatal_idle := by rw [hfatal, hinFlight]; exact h.fatal_idle
  remaining_pos := by rw [hinFlight]; exact h.remaining_pos

/-- An event to come can be dropped from the queue: the invariant does not speak of it. -/
theorem CoreInv.with_pending {s : State} (h : CoreInv s) (rest : List HostEvent) :
    CoreInv { s with pending := rest } := h.congr rfl rfl rfl rfl

theorem CoreInv.idle_of_fatal {s : State} (h : CoreInv s) (hfatal : s.fatal = true) : s.busy = false := by
  rw [State.busy, h.fatal_idle hfatal]
  rfl

theorem CoreInv.not_fatal_of_inFlight {s : State} (h : CoreInv s) {c : InFlight} (hc : s.inFlight = some c) :
    s.fatal = false := by
  by_contra hfatal
  rw [h.fatal_idle (by simpa using hfatal)] at hc
  cases hc

theorem code_le (e : ErrorName) : e.code.toNat ≤ 5 := by cases e <;> decide

theorem code_eq_divisionByZero_iff (e : ErrorName) :
    e.code = ErrorName.divisionByZero.code ↔ e = .divisionByZero := by
  cases e <;> decide

/-- A core that is not fatal, has no command in flight and holds a code other than 4 meets the invariant. -/
theorem coreInv_of_idle {t : State} (hwf : t.text.wf) (hfatal : t.fatal = false) (hidle : t.inFlight = none)
    {e : ErrorName} (herr : t.err = e.code) (he : e ≠ .divisionByZero) : CoreInv t where
  text_wf := hwf
  err_produced := herr ▸ code_le e
  fatal_iff := by rw [hfatal, herr, code_eq_divisionByZero_iff]; exact iff_of_false nofun he
  fatal_idle _ := hidle
  remaining_pos c hc := by rw [hidle] at hc; cases hc

/-- The fatal end meets the invariant. -/
theorem coreInv_raiseFatal {u : State} (hwf : u.text.wf) : CoreInv (raiseFatal .divisionByZero u) where
  text_wf := hwf
  err_produced := code_le .divisionByZero
  fatal_iff := iff_of_true rfl rfl
  fatal_idle _ := rfl
  remaining_pos := nofun

/-- A command's end meets the invariant, if the core was not fatal. -/
theorem exec_keeps_inv {i : Instr} {s t : State} (hwf : s.text.wf) (hfatal : s.fatal = false)
    (h : exec i s = .next t) : CoreInv t := by
  obtain ⟨u, hwrites, hend⟩ := exec_writes_of_next h
  have hwf' : u.text.wf := hwrites.text_wf hwf
  have hfatal' : u.fatal = false := by rw [hwrites.rest]; exact hfatal
  cases hend with
  | completed => exact coreInv_of_idle (e := .noError) hwf' hfatal' rfl rfl nofun
  | recoverable e _ hdiv _ => exact coreInv_of_idle hwf' hfatal' rfl rfl hdiv
  | fatal _ => exact coreInv_raiseFatal hwf'

theorem completeCommand_keeps_inv {c : InFlight} {s t : State} (hwf : s.text.wf) (hfatal : s.fatal = false)
    (h : completeCommand c s = .next t) : CoreInv t := by
  rcases completeCommand_illegal_or_exec c with hillegal | ⟨i, -, -, hexec⟩
  · rw [hillegal] at h
    cases h
    exact coreInv_of_idle (e := .illegalCommand) hwf hfatal rfl rfl nofun
  · exact exec_keeps_inv hwf hfatal (hexec s ▸ h)

theorem coreCycle_keeps_inv {s t : State} (hs : CoreInv s) (h : coreCycle s = .next t) : CoreInv t := by
  rcases coreCycle_cases s with ⟨-, hc⟩ | ⟨c, hin, hremaining, hc⟩ | ⟨c, hin, -, hc⟩
  · cases hc.symm.trans h
    exact hs
  · cases hc.symm.trans h
    have hfatal := hs.not_fatal_of_inFlight hin
    exact ⟨hs.text_wf, hs.err_produced, hs.fatal_iff, fun hf => absurd (hfatal.symm.trans hf) nofun, by
      rintro c' ⟨⟩; exact Nat.le_sub_one_of_lt hremaining⟩
  · exact completeCommand_keeps_inv hs.text_wf (hs.not_fatal_of_inFlight hin) (hc.symm.trans h)

theorem hostRead_keeps_inv {s : State} (hs : CoreInv s) (off : Offset) : CoreInv (hostRead off s) := by
  rcases hostRead_cases off s with ⟨h, -⟩ | ⟨h, -⟩ <;> rw [h] <;> exact hs.congr rfl rfl rfl rfl

theorem hostWrite_keeps_inv {s : State} (hs : CoreInv s) (off : Offset) (w : Limb) : CoreInv (hostWrite off w s) := by
  rcases hostWrite_cases off w s with ⟨h, -⟩ | ⟨-, -, h⟩ | ⟨-, -, -, h⟩ | ⟨h, -⟩ | ⟨-, -, hfatal, h⟩ |
    ⟨-, -, h | ⟨k, -, h⟩ | ⟨n, j, -, h⟩⟩ <;> rw [h]
  · exact hs
  · exact coreInv_of_idle (e := .noError) hs.text_wf rfl rfl rfl nofun
  · exact hs.congr rfl rfl rfl rfl
  · exact hs.congr rfl rfl rfl rfl
  · exact ⟨hs.text_wf, hs.err_produced, hs.fatal_iff, fun hf => absurd (hfatal.symm.trans hf) nofun, by
      rintro c ⟨⟩; exact one_le_latencyOf _ s⟩
  · exact hs.congr rfl rfl rfl rfl
  · rw [writeTextWord_eq]
    exact ⟨writeTexts_wf _ _ hs.text_wf, hs.err_produced, hs.fatal_iff, hs.fatal_idle, hs.remaining_pos⟩
  · exact hs.congr rfl rfl rfl rfl

theorem event_keeps_inv {e : HostEvent} {s t : State} (hs : CoreInv s) (h : event e s = .next t) : CoreInv t := by
  rcases event_cases e s with ⟨off, -, -, he⟩ | ⟨off, w, -, -, he⟩ | ⟨-, he⟩ | ⟨-, he⟩ | ⟨_, _, -, -, he⟩ <;>
    rw [he] at h
  · cases h; exact hostRead_keeps_inv hs off
  · cases h; exact hostWrite_keeps_inv hs off w
  · exact coreCycle_keeps_inv hs h
  · cases h; exact coreInv_of_idle (e := .noError) nil_wf rfl rfl rfl nofun
  · cases h

/-- Settles O49: every event keeps the invariant, and a step is an event or a core cycle. -/
theorem stepKeepsInvariant : Obligations.StepKeepsInvariant := by
  intro s t hs h
  rcases hp : s.pending with _ | ⟨e, rest⟩
  · exact coreCycle_keeps_inv hs (step_of_nil hp ▸ h)
  · exact event_keeps_inv (hs.with_pending rest) (step_of_cons hp ▸ h)

/-! ### The fatal state (`60_exceptions.md` R172, R179) -/

/-- A core cycle of an idle core changes nothing (`60_exceptions.md` R187). -/
theorem coreCycle_of_idle {s : State} (hidle : s.inFlight = none) : coreCycle s = .next s := by
  simp only [coreCycle, hidle]

/-- The hard reset, and a CTRL write with SRST. -/
def HostEvent.ResetsCore (e : HostEvent) : Prop :=
  e = .hardReset ∨ ∃ w : Limb, e = .write 0x010 8 w ∧ w.getLsbD 0 = true

/-- A host write other than SRST to a core with no command in flight keeps FATAL and ERR. -/
theorem hostWrite_fatal_err {off : Offset} (haligned : off.toNat % 8 = 0) (w : Limb) (s : State) :
    (HostEvent.write off 8 w).ResetsCore ∨
      ((hostWrite off w s).fatal = s.fatal ∧ (hostWrite off w s).err = s.err) := by
  rcases hostWrite_cases off w s with ⟨h, -⟩ | ⟨hctrl, hsrst, -⟩ | ⟨-, -, -, h⟩ | ⟨h, -⟩ | ⟨-, -, -, h⟩ |
    ⟨-, -, h | ⟨k, -, h⟩ | ⟨n, j, -, h⟩⟩
  case inr.inl => exact .inl (.inr ⟨w, by rw [eq_ctrl_offset haligned hctrl], hsrst⟩)
  case inr.inr.inr.inr.inr.inr.inl => exact .inr (by rw [h, writeTextWord_eq]; exact ⟨rfl, rfl⟩)
  all_goals exact .inr (by rw [h]; exact ⟨rfl, rfl⟩)

/-- An event to an idle core resets it, or keeps FATAL and ERR. -/
theorem event_fatal_err_of_idle {e : HostEvent} {s t : State} (hidle : s.inFlight = none) (h : event e s = .next t) :
    e.ResetsCore ∨ (t.fatal = s.fatal ∧ t.err = s.err) := by
  rcases event_cases e s with ⟨off, rfl, -, he⟩ | ⟨off, w, rfl, haligned, he⟩ | ⟨rfl, he⟩ | ⟨rfl, he⟩ |
    ⟨_, _, -, -, he⟩ <;> rw [he] at h
  · cases h
    rcases hostRead_cases off s with ⟨hread, -⟩ | ⟨hread, -⟩ <;> rw [hread] <;> exact .inr ⟨rfl, rfl⟩
  · cases h
    exact hostWrite_fatal_err haligned w s
  · cases (coreCycle_of_idle hidle).symm.trans h
    exact .inr ⟨rfl, rfl⟩
  · exact .inl (.inl rfl)
  · cases h

/-- Settles O39: a fatal core is idle, so that only a reset changes FATAL or ERR. -/
theorem fatalUntilReset : Obligations.FatalUntilReset := by
  intro s t hs hfatal h
  have hidle := hs.fatal_idle hfatal
  have herr : s.err = 4 := hs.fatal_iff.1 hfatal
  rcases hp : s.pending with _ | ⟨e, rest⟩
  · rw [step_of_nil hp, coreCycle_of_idle hidle] at h
    cases h
    exact .inl ⟨hfatal, herr⟩
  · rw [step_of_cons hp] at h
    have hcases := event_fatal_err_of_idle (s := { s with pending := rest }) hidle h
    rcases hcases with (rfl | ⟨w, rfl, hsrst⟩) | ⟨hfatal', herr'⟩
    · exact .inr ⟨rest, .inl rfl⟩
    · exact .inr ⟨rest, .inr ⟨w, rfl, hsrst⟩⟩
    · exact .inl ⟨hfatal'.trans hfatal, herr'.trans herr⟩

/-- Settles O40: FATAL blocks CMD, and as the core is idle in it, everything else is as in any idle core. -/
theorem fatalBlocksCommandsOnly : Obligations.FatalBlocksCommandsOnly := by
  intro s w n j k hs hfatal
  have hidle := hs.idle_of_fatal hfatal
  refine ⟨?cmd, coreCycle_of_idle (hs.fatal_idle hfatal), event_write_limb_of_idle hidle n j w,
    event_read_limb_of_idle hidle n j, event_write_text_of_idle hidle k w, event_read_text_of_idle hidle k, ?tlen,
    event_read_tlen_of_idle hidle⟩
  case cmd =>
    rw [event_write (by decide), hostWrite_of_cmd (by decide), writeCmd_of_busy_or_fatal (.inr hfatal)]
    rfl
  case tlen =>
    rw [event_write_tlen_of_idle hidle, BitVec.setWidth_eq_extractLsb' (by decide)]
    rfl

end Sys2Proof.Machine
end

section
/-! Proofs about a command from its acceptance to its end (`20_memory.md` R61, R62, `30_encoding.md` R86). -/

namespace Sys2Proof.Machine

/-! ### A core cycle of a busy core -/

/-- The next step is a core cycle that leaves `rest` to come: by an event, or by an empty queue (log entry 5). -/
def CycleDue (s : State) (rest : List HostEvent) : Prop :=
  (s.pending = [] ∧ rest = []) ∨ s.pending = .cycle :: rest

theorem step_of_cycleDue {s : State} {rest : List HostEvent} (h : CycleDue s rest) :
    step s = coreCycle { s with pending := rest } := by
  rcases h with ⟨hp, rfl⟩ | hp
  · rw [step_of_nil hp, ← hp]
  · exact step_of_cons hp

theorem coreCycle_of_last {s : State} {c : InFlight} (hin : s.inFlight = some c) (hlast : c.remaining ≤ 1) :
    coreCycle s = completeCommand c s := by
  simp only [coreCycle, hin, if_pos hlast]

theorem coreCycle_of_more {s : State} {c : InFlight} (hin : s.inFlight = some c) (hmore : 1 < c.remaining) :
    coreCycle s = .next { s with inFlight := some { c with remaining := c.remaining - 1 } } := by
  simp only [coreCycle, hin, if_neg hmore.not_ge]

/-- Settles O41: the last cycle is the completion, which is the command's meaning. -/
theorem stepRunsDecodedCommand : Obligations.StepRunsDecodedCommand := by
  intro s c i hin hlast hhi hdecode _
  have hstep {rest : List HostEvent} (hdue : CycleDue s rest) : step s = exec i { s with pending := rest } := by
    rw [step_of_cycleDue hdue, coreCycle_of_last (s := { s with pending := rest }) hin hlast.le,
      completeCommand_of_decode hhi hdecode]
  refine ⟨fun hp => ?_, fun rest hp => hstep (.inr hp)⟩
  rw [hstep (.inl ⟨hp, rfl⟩), ← hp]

/-! ### Acceptance -/

/-- The command in flight right after a CMD write of `w` was accepted (`20_memory.md` R61). -/
def acceptedCommand (w : Limb) (s : State) : InFlight :=
  ⟨w.extractLsb' 0 32, w.extractLsb' 32 32 != 0, latencyOf (w.extractLsb' 0 32) s⟩

theorem hostWrite_cmd_of_idle {s : State} (hidle : s.busy = false) (hfatal : s.fatal = false) (w : Limb) :
    hostWrite 0x018 w s = { s with inFlight := some (acceptedCommand w s) } := by
  rw [hostWrite_of_cmd (by decide), writeCmd_of_idle hidle hfatal]
  rfl

/-- A completion does not ask how many cycles the command took. -/
theorem completeCommand_remaining (c : InFlight) (k : Nat) (s : State) :
    completeCommand { c with remaining := k } s = completeCommand c s := rfl

/-- A CMD write that carries no command is an illegal word in flight (`30_encoding.md` R86). -/
theorem illegal_acceptedCommand {w : Limb} (s : State)
    (h : w.extractLsb' 32 32 ≠ 0 ∨ (∀ o : Opcode, w.extractLsb' 0 32 &&& o.mask ≠ o.pattern) ∨
      (w.extractLsb' 0 8 = 0x0A ∧ w.extractLsb' 8 4 = w.extractLsb' 20 4)) :
    (acceptedCommand w s).illegalHi = true ∨ ∃ e, decode (acceptedCommand w s).cur = .error e := by
  refine h.imp bne_iff_ne.2 fun hword => decode_eq_error_of (hword.imp_right ?_)
  rintro ⟨hop, hreg⟩
  have hfield (lo len : Nat) (hle : lo + len ≤ 32) :
      (w.extractLsb' 0 32).extractLsb' lo len = w.extractLsb' lo len := by
    rw [BitVec.extractLsb'_extractLsb'_of_le (by omega)]
  refine ⟨(hfield 0 8 (by decide)).trans hop, ?_⟩
  exact congrArg BitVec.toFin ((hfield 8 4 (by decide)).trans (hreg.trans (hfield 20 4 (by decide)).symm))

/-- Settles O27: an illegal word is accepted as any other, and its completion raises code 5 on the state as it is. -/
theorem illegalCommandCompletes : Obligations.IllegalCommandCompletes := by
  intro s w hidle hfatal hillegal
  have hends (u : State) := completeCommand_of_illegal (s := u) (illegal_acceptedCommand s hillegal)
  refine ⟨acceptedCommand w s, hostWrite_cmd_of_idle hidle hfatal w, one_le_latencyOf _ s, hends, ?_⟩
  intro u rest hin hdue
  refine ⟨raiseRecoverable .illegalCommand { u with pending := rest }, ?step, (raiseRecoverable_frame _ _).1, rfl, rfl,
    rfl, rfl⟩
  case step =>
    rw [step_of_cycleDue hdue, coreCycle_of_last (s := { u with pending := rest }) hin le_rfl,
      completeCommand_remaining, hends]

/-! ### The countdown -/

/-- The state in which `k` cycles of the command `c` have passed. -/
def afterCycles (c : InFlight) (k : Nat) (s : State) : State :=
  { s with inFlight := some { c with remaining := c.remaining - k } }

@[simp] theorem afterCycles_pending (c : InFlight) (k : Nat) (s : State) :
    (afterCycles c k s).pending = s.pending := rfl

/-- A core cycle counts one more cycle, as long as it is not the last. -/
theorem coreCycle_afterCycles {c : InFlight} {k : Nat} {s : State} (hk : k + 1 < c.remaining) :
    coreCycle (afterCycles c k s) = .next (afterCycles c (k + 1) s) := by
  have hmore : 1 < c.remaining - k := by omega
  rw [coreCycle_of_more (c := { c with remaining := c.remaining - k }) rfl hmore]
  rfl

/-- With no event to come a command in flight counts down, and nothing else changes. -/
theorem run_of_cycles {s : State} {c : InFlight} (hp : s.pending = []) {k : Nat} (hk : k < c.remaining) :
    run k (afterCycles c 0 s) = .next (afterCycles c k s) := by
  induction k with
  | zero => rfl
  | succ k ih =>
    have hp' : (afterCycles c k s).pending = [] := hp
    rw [run_succ_of_run (ih (Nat.lt_of_succ_lt hk)), step_of_nil hp', coreCycle_afterCycles hk]

/-- What accesses can change stays apart from the countdown. -/
theorem sameButAccesses_afterCycles {c : InFlight} {k : Nat} {s u : State}
    (h : SameButAccesses (afterCycles c k s) u) (j : Nat) :
    SameButAccesses (afterCycles c j s) (afterCycles c j u) := by
  obtain ⟨hregs, hcf, hfatal, herr, htlen, htext, -, hresets⟩ := (sameButAccesses_iff _ _).1 h
  exact (sameButAccesses_iff _ _).2 ⟨hregs, hcf, hfatal, herr, htlen, htext, rfl, hresets⟩

/-- An event that a command in flight outlives takes one from the count if it is a cycle, and beside it only what
accesses can change has changed. -/
theorem event_of_keepsCommand {e : HostEvent} {s u : State} {c : InFlight} {k : Nat} (hkeeps : e.KeepsCommand)
    (hcount : k + [e].count .cycle < c.remaining) (hsame : SameButAccesses (afterCycles c k s) u) :
    ∃ v, event e u = .next v ∧ SameButAccesses (afterCycles c (k + [e].count .cycle) s) v ∧ v.pending = u.pending := by
  obtain ⟨-, -, -, -, -, -, hin, -⟩ := (sameButAccesses_iff _ _).1 hsame
  by_cases he : e = .cycle
  · subst he
    have hu : afterCycles c k u = u := by
      rw [afterCycles, show some { c with remaining := c.remaining - k } = u.inFlight from hin.symm]
    refine ⟨afterCycles c (k + 1) u, ?_, sameButAccesses_afterCycles hsame _, rfl⟩
    have hcycle := coreCycle_afterCycles (s := u) hcount
    rwa [hu] at hcycle
  · have hbusy : u.busy = true := by
      rw [State.busy, hin]
      rfl
    obtain ⟨v, hv, hsv, hvp⟩ := event_of_busy hbusy hkeeps he
    rw [List.count_cons_of_ne he]
    exact ⟨v, hv, hsame.trans hsv, hvp⟩

/-- The accesses of a host between the cycles do not disturb the countdown. -/
theorem run_of_events {events rest : List HostEvent} {s u : State} {c : InFlight} {k : Nat}
    (hkeeps : ∀ e ∈ events, e.KeepsCommand) (hcount : k + events.count .cycle < c.remaining)
    (hsame : SameButAccesses (afterCycles c k s) u) (hp : u.pending = events ++ rest) :
    ∃ v, run events.length u = .next v ∧ SameButAccesses (afterCycles c (k + events.count .cycle) s) v ∧
      v.pending = rest := by
  induction events generalizing u k with
  | nil => exact ⟨u, rfl, hsame, hp⟩
  | cons e events ih =>
    have hsplit : (e :: events).count .cycle = [e].count .cycle + events.count .cycle :=
      List.count_append (l₁ := [e])
    rw [hsplit, ← Nat.add_assoc] at hcount ⊢
    have hsame' : SameButAccesses (afterCycles c k s) { u with pending := events ++ rest } :=
      hsame.trans ((sameButAccesses_iff _ _).2 ⟨rfl, rfl, rfl, rfl, rfl, rfl, rfl, rfl⟩)
    obtain ⟨v, hv, hsv, hvp⟩ := event_of_keepsCommand (hkeeps e List.mem_cons_self) (by omega) hsame'
    obtain ⟨x, hrun, hx, hxp⟩ := ih (fun e' he' => hkeeps e' (List.mem_cons_of_mem _ he')) hcount hsv hvp
    exact ⟨x, (run_succ_of_step ((step_of_cons hp).trans hv) _).trans hrun, hx, hxp⟩

/-! ### The completion -/

/-- A completion reads and writes nothing that an access to a busy core can change, nor which command is in flight
(log entry 16). -/
theorem completeCommand_of_sameButAccesses {c : InFlight} {s t u : State} {x : Option InFlight}
    (ht : completeCommand c s = .next t) (hsame : SameButAccesses { s with inFlight := x } u) :
    completeCommand c u =
      .next { t with haz := u.haz, pending := u.pending, readLog := u.readLog, draws := u.draws } := by
  rcases completeCommand_illegal_or_exec c with hillegal | ⟨i, -, -, hexec⟩
  · rw [hillegal] at ht ⊢
    cases ht
    rw [hsame]
    rfl
  · rw [hexec] at ht ⊢
    rw [hsame]
    exact exec_accesses ((exec_inFlight i s x).trans ht) _ _ _ _

theorem completeCommand_idle {c : InFlight} {s t : State} (h : completeCommand c s = .next t) :
    t.inFlight = none := by
  obtain ⟨u, hend | ⟨e, -, -, hend⟩ | hend, -⟩ := completeCommand_cases c s <;> cases hend.symm.trans h <;> rfl

/-- A CMD write that carries a command completes by the command's meaning. -/
theorem completeCommand_of_decodeCmdWrite {w : Limb} {i : Instr} (h : decodeCmdWrite w = .ok i) (s s' : State) :
    completeCommand (acceptedCommand w s') s = exec i s := by
  unfold decodeCmdWrite at h
  split at h
  · next hhi => exact completeCommand_of_decode (bne_eq_false_iff_eq.2 hhi) h
  · cases h

/-- A CMD write that carries none completes with code 5. -/
theorem completeCommand_of_decodeCmdWrite_error {w : Limb} {e : DecodeError} (h : decodeCmdWrite w = .error e)
    (s s' : State) : completeCommand (acceptedCommand w s') s = .next (raiseRecoverable .illegalCommand s) := by
  unfold decodeCmdWrite at h
  split at h
  · exact completeCommand_of_illegal (.inr ⟨e, h⟩)
  · next hhi => exact completeCommand_of_illegal (.inl (bne_iff_ne.2 hhi))

/-- The last cycle of a command, with accesses before it or none: the result `t` of the command on the state at
acceptance, and of the state before the cycle only what accesses can change. -/
theorem step_of_lastCycle {c : InFlight} {s t u : State} {rest : List HostEvent} {k : Nat}
    (ht : completeCommand c s = .next t) (hlast : k + 1 = c.remaining) (hsame : SameButAccesses (afterCycles c k s) u)
    (hdue : CycleDue u rest) :
    step u = .next { t with haz := u.haz, pending := rest, readLog := u.readLog, draws := u.draws } := by
  obtain ⟨-, -, -, -, -, -, hin, -⟩ := (sameButAccesses_iff _ _).1 hsame
  have hone : c.remaining - k ≤ 1 := by omega
  have hsame' : SameButAccesses (afterCycles c k s) { u with pending := rest } :=
    hsame.trans ((sameButAccesses_iff _ _).2 ⟨rfl, rfl, rfl, rfl, rfl, rfl, rfl, rfl⟩)
  rw [step_of_cycleDue hdue, coreCycle_of_last (s := { u with pending := rest }) hin hone, completeCommand_remaining]
  exact completeCommand_of_sameButAccesses ht hsame'

/-- Settles O42: the countdown runs as far as the last cycle, with or without accesses between the cycles, and the
completion is the command's on the state at acceptance. -/
theorem acceptedCommandCompletes : Obligations.AcceptedCommandCompletes := by
  intro s w hidle hfatal n inFlightAfter
  rw [hostWrite_cmd_of_idle hidle hfatal]
  have hn : 1 ≤ n := one_le_latencyOf _ s
  obtain ⟨t, ht⟩ := completeCommand_next (acceptedCommand w s) s
  refine ⟨hn, t, by rw [State.busy, completeCommand_idle ht]; rfl, ?command, ?illegal, ?cycles, ?accesses⟩
  case command => exact fun i hi => (completeCommand_of_decodeCmdWrite hi s s).symm.trans ht
  case illegal =>
    intro e he
    have hin : s.inFlight = none := by simpa [State.busy] using hidle
    cases (completeCommand_of_decodeCmdWrite_error he s s).symm.trans ht
    rw [raiseRecoverable, ← hin]
    rfl
  case cycles =>
    intro hp
    have hrun {k : Nat} (hk : k < n) := run_of_cycles (c := acceptedCommand w s) hp hk
    refine ⟨?_, fun k hk => hrun hk⟩
    obtain ⟨m, hm⟩ : ∃ m, n = m + 1 := ⟨n - 1, by omega⟩
    have hkept : t = { t with haz := s.haz, pending := s.pending, readLog := s.readLog, draws := s.draws } :=
      Host.Outcome.next.inj (ht.symm.trans (completeCommand_of_sameButAccesses ht (SameButAccesses.refl s)))
    rw [hm, hkept]
    refine (run_succ_of_run (hrun (by omega))).trans ?_
    exact step_of_lastCycle ht hm.symm (SameButAccesses.refl _) (.inl ⟨hp, hp⟩)
  case accesses =>
    intro events rest hp hkeeps hcount
    have hrun {front back : List HostEvent} (hsplit : events = front ++ back) :=
      run_of_events (events := front) (rest := back ++ .cycle :: rest) (k := 0) (s := s) (c := acceptedCommand w s)
        (fun e he => hkeeps e (hsplit ▸ List.mem_append_left _ he))
        (by
          have hle : front.count .cycle ≤ events.count .cycle := by
            rw [hsplit, List.count_append]; exact Nat.le_add_right _ _
          rw [Nat.zero_add]
          exact (Nat.lt_succ_of_le hle).trans_eq hcount)
        (SameButAccesses.refl _) (by rw [afterCycles_pending, hp, hsplit, List.append_assoc])
    simp only [Nat.zero_add] at hrun
    refine ⟨?_, fun k hk => ?_⟩
    · obtain ⟨u, hu, hsame, hup⟩ := hrun (List.append_nil events).symm
      exact ⟨_, (run_succ_of_run hu).trans (step_of_lastCycle ht hcount hsame (.inr hup)), rfl, rfl⟩
    · obtain ⟨u, hu, hsame, -⟩ := hrun (List.take_append_drop k events).symm
      rw [List.length_take, Nat.min_eq_left hk] at hu
      exact ⟨u, hu, hsame⟩

end Sys2Proof.Machine
end

section
/-! Proofs about the host's access lists LDV, RDV and LDT on an idle core (`30_encoding.md` R90). -/

namespace Sys2Proof.Machine

/-! ### LDV and RDV -/

/-- `s` with the events `events` to come. -/
def withEvents (events : List HostEvent) (s : State) : State := { s with pending := events }

@[simp] theorem withEvents_pending (s : State) : withEvents s.pending s = s := rfl

theorem step_withEvents_cons (e : HostEvent) (rest : List HostEvent) (s : State) :
    step (withEvents (e :: rest) s) = event e (withEvents rest s) := step_of_cons rfl

theorem step_hostW_limb {s : State} (hidle : s.busy = false) (n : RegNum) (j : Fin 4) (w : Limb)
    (rest : List HostEvent) : step (withEvents (hostW (limbOffset n j) w :: rest) s) =
      .next (withEvents rest (writeLimb n j w s)) :=
  (step_withEvents_cons _ rest s).trans (event_write_limb_of_idle (s := withEvents rest s) hidle n j w)

theorem step_hostR_limb {s : State} (hidle : s.busy = false) (n : RegNum) (j : Fin 4) (rest : List HostEvent) :
    step (withEvents (hostR (limbOffset n j) :: rest) s) =
      .next (withEvents rest (returnWord (limb (readReg s n) j) s)) :=
  (step_withEvents_cons _ rest s).trans (event_read_limb_of_idle (s := withEvents rest s) hidle n j)

theorem writeReg_writeReg (n : RegNum) (v w : Magnitude) (s : State) :
    writeReg n v (writeReg n w s) = writeReg n v s := by
  simp only [writeReg, Vector.set_set]

/-- The four limbs of `v`, written one after the other, make the register `v`. -/
theorem writeLimb_all (n : RegNum) (v : Magnitude) (s : State) :
    writeLimb n 3 (limb v 3) (writeLimb n 2 (limb v 2) (writeLimb n 1 (limb v 1) (writeLimb n 0 (limb v 0) s))) =
      writeReg n v s := by
  simp only [writeLimb, readReg_writeReg_self, writeReg_writeReg]
  congr 1
  refine magnitude_ext fun j => ?_
  simp only [limb_setLimb]
  fin_cases j <;> rfl

theorem run_macroLdv {s : State} (hidle : s.busy = false) (n : RegNum) (v : Magnitude) (rest : List HostEvent) :
    run 4 (withEvents (macroLdv n v ++ rest) s) = .next (withEvents rest (writeReg n v s)) := by
  rw [← writeLimb_all]
  refine (run_succ_of_step (step_hostW_limb hidle n 0 _ _) 3).trans ?_
  refine (run_succ_of_step (step_hostW_limb (by exact hidle) n 1 _ _) 2).trans ?_
  refine (run_succ_of_step (step_hostW_limb (by exact hidle) n 2 _ _) 1).trans ?_
  exact (run_one _).trans (step_hostW_limb (by exact hidle) n 3 _ rest)

theorem run_macroRdv {s : State} (hidle : s.busy = false) (n : RegNum) (rest : List HostEvent) :
    run 4 (withEvents (macroRdv n ++ rest) s) = .next (withEvents rest { s with
      readLog := [limb (readReg s n) 3, limb (readReg s n) 2, limb (readReg s n) 1, limb (readReg s n) 0]
        ++ s.readLog }) := by
  refine (run_succ_of_step (step_hostR_limb hidle n 0 _) 3).trans ?_
  refine (run_succ_of_step (step_hostR_limb (by exact hidle) n 1 _) 2).trans ?_
  refine (run_succ_of_step (step_hostR_limb (by exact hidle) n 2 _) 1).trans ?_
  exact (run_one _).trans (step_hostR_limb (by exact hidle) n 3 rest)

/-- Settles O59: LDV makes the register `v`, and RDV returns the limbs of what it then holds. -/
theorem loadAndReadRegisterMacros : Obligations.LoadAndReadRegisterMacros := by
  intro s n v rest hidle hp
  have hs : s = withEvents (macroLdv n v ++ (macroRdv n ++ rest)) s := by
    rw [← List.append_assoc, ← hp, withEvents_pending]
  have hload := run_macroLdv hidle n v (macroRdv n ++ rest)
  have hread := run_macroRdv (s := writeReg n v s) hidle n rest
  rw [readReg_writeReg_self] at hread
  calc
    run 8 s = run (4 + 4) (withEvents (macroLdv n v ++ (macroRdv n ++ rest)) s) := congrArg (run 8) hs
    _ = run 4 (withEvents (macroRdv n ++ rest) (writeReg n v s)) := run_add hload 4
    _ = _ := hread

/-! ### LDT -/

/-- `s` after the first `k` text words of LDT were written. -/
def afterLdtWords (t : List Byte) (s : State) : Nat → State
  | 0 => s
  | k + 1 => writeTextWord (Fin.ofNat 32 k) (ldtWord t k) (afterLdtWords t s k)

theorem afterLdtWords_eq (t : List Byte) (s : State) (k : Nat) :
    afterLdtWords t s k = { s with text := (afterLdtWords t s k).text } := by
  induction k with
  | zero => rfl
  | succ k ih => rw [afterLdtWords, writeTextWord_eq, ih]

theorem wordByte_ldtWord (t : List Byte) (k : Nat) {i : Nat} (hi : i < 8) :
    wordByte (ldtWord t k) i = t.getD (8 * k + i) 0 := by
  rw [ldtWord, wordByte_ofBytes _ _ _ _ _ _ _ _ i hi]
  interval_cases i <;> rfl

/-- The words written so far hold the text, and 0 past its end. -/
theorem readText_afterLdtWords (t : List Byte) (s : State) {k : Nat} (hk : k ≤ 32) {i : Nat} (hi : i < 8 * k) :
    readText (afterLdtWords t s k) i = t.getD i 0 := by
  induction k with
  | zero => omega
  | succ k ih =>
    have hplace : (Fin.ofNat 32 k).val = k := Nat.mod_eq_of_lt hk
    rw [afterLdtWords, readText_writeTextWord, hplace]
    split
    · next h => rw [wordByte_ldtWord t k (by omega), Nat.add_sub_cancel' h.1]
    · next h => exact ih (by omega) (by omega)

/-- The accesses of the first `k` text words of LDT. -/
def ldtWordWrites (t : List Byte) (k : Nat) : List HostEvent :=
  (List.range k).map fun k => hostW (textOffset (Fin.ofNat 32 k)) (ldtWord t k)

theorem ldtWordWrites_succ (t : List Byte) (k : Nat) (rest : List HostEvent) : ldtWordWrites t (k + 1) ++ rest =
    ldtWordWrites t k ++ hostW (textOffset (Fin.ofNat 32 k)) (ldtWord t k) :: rest := by
  rw [ldtWordWrites, List.range_succ, List.map_append, List.append_assoc]
  rfl

theorem writeTextWord_withEvents (k : Fin 32) (w : Limb) (events : List HostEvent) (s : State) :
    writeTextWord k w (withEvents events s) = withEvents events (writeTextWord k w s) :=
  writeTexts_accesses _ _ s s.haz events s.readLog s.draws |>.trans (by rw [withEvents, writeTextWord, writeTexts_eq])

theorem afterLdtWords_busy (t : List Byte) (s : State) (k : Nat) : (afterLdtWords t s k).busy = s.busy := by
  rw [afterLdtWords_eq]
  rfl

theorem run_ldtWordWrites {s : State} (hidle : s.busy = false) (t : List Byte) (k : Nat) (rest : List HostEvent) :
    run k (withEvents (ldtWordWrites t k ++ rest) s) = .next (withEvents rest (afterLdtWords t s k)) := by
  induction k generalizing rest with
  | zero => rfl
  | succ k ih =>
    rw [ldtWordWrites_succ, run_succ_of_run (ih _), step_withEvents_cons, afterLdtWords, ← writeTextWord_withEvents]
    exact event_write_text_of_idle (s := withEvents rest (afterLdtWords t s k))
      ((afterLdtWords_busy t s k).trans hidle) _ _

/-- A text as long as TLEN that T holds from its first byte on is the text operand. -/
theorem textOperand_eq_of_readText {s : State} {t : List Byte} (hlen : s.tlen.toNat = t.length)
    (hread : ∀ i < t.length, readText s i = t.getD i 0) : textOperand s = t := by
  refine List.ext_getElem (by rw [textOperand_length, hlen]) fun i hi hi' => ?_
  simp only [textOperand, List.getElem_map, List.getElem_range]
  rw [hread i hi', List.getD_eq_getElem _ _ hi']

/-- Settles O60: the words hold the text, and the write of TLEN cuts it off at its length. -/
theorem loadTextMacro : Obligations.LoadTextMacro := by
  intro s t rest hlen hidle hp
  let words := (t.length + 7) / 8
  have hlength : (macroLdt t).length = words + 1 := by simp [macroLdt, words]
  have hs : s = withEvents (ldtWordWrites t words ++ hostW 0x020 (BitVec.ofNat 64 t.length) :: rest) s := by
    have hevents : s.pending = ldtWordWrites t words ++ hostW 0x020 (BitVec.ofNat 64 t.length) :: rest := by
      rw [hp, macroLdt, List.append_assoc]
      rfl
    rw [← hevents, withEvents_pending]
  have htlen : ((BitVec.ofNat 64 t.length).setWidth 8).toNat = t.length := by
    rw [BitVec.toNat_setWidth, BitVec.toNat_ofNat]
    omega
  refine ⟨writeTlen ((BitVec.ofNat 64 t.length).setWidth 8) (withEvents rest (afterLdtWords t s words)), ?run,
    textOperand_eq_of_readText htlen ?holds, rfl, ?frame⟩
  case run =>
    have hrun := run_ldtWordWrites hidle t words (hostW 0x020 (BitVec.ofNat 64 t.length) :: rest)
    rw [← hs] at hrun
    rw [hlength, run_succ_of_run hrun, step_withEvents_cons]
    exact event_write_tlen_of_idle (s := withEvents rest (afterLdtWords t s words))
      ((afterLdtWords_busy t s words).trans hidle) _
  case holds =>
    intro i hi
    exact readText_afterLdtWords t s (k := words) (by omega) (by omega)
  case frame =>
    rw [afterLdtWords_eq]
    rfl

end Sys2Proof.Machine
end

section
/-! Proofs about the reference datapaths of the kernel: the carry chain, the borrow chain and the schoolbook columns
give the exact results (`40_kernel.md` R102, R105, R111). -/

namespace Sys2Proof.Machine

/-! ### Limb lists -/

/-- Every entry of the list is a limb. -/
def AllLimbs (ls : List Nat) : Prop := ∀ l ∈ ls, l < 2 ^ 64

theorem limbListValue_append (ls ms : List Nat) :
    limbListValue (ls ++ ms) = limbListValue ls + 2 ^ (64 * ls.length) * limbListValue ms := by
  induction ls with
  | nil => simp [limbListValue]
  | cons l ls ih =>
    have hpow : 2 ^ (64 * (l :: ls).length) = 2 ^ 64 * 2 ^ (64 * ls.length) := by
      rw [List.length_cons, Nat.mul_succ, Nat.add_comm, pow_add]
    rw [List.cons_append, limbListValue, limbListValue, ih, hpow]
    ring

theorem limbListValue_singleton (l : Nat) : limbListValue [l] = l := by simp [limbListValue]

theorem limbListValue_lt {ls : List Nat} (h : AllLimbs ls) : limbListValue ls < 2 ^ (64 * ls.length) := by
  induction ls with
  | nil => simp [limbListValue]
  | cons l ls ih =>
    obtain ⟨hl, hls⟩ := List.forall_mem_cons.1 h
    have hrest : limbListValue ls + 1 ≤ 2 ^ (64 * ls.length) := ih hls
    rw [limbListValue, List.length_cons, Nat.mul_succ, Nat.add_comm (64 * ls.length), pow_add]
    calc
      l + 2 ^ 64 * limbListValue ls < 2 ^ 64 * (limbListValue ls + 1) := by omega
      _ ≤ 2 ^ 64 * 2 ^ (64 * ls.length) := Nat.mul_le_mul_left _ hrest

theorem limbListValue_ne_zero_iff (ls : List Nat) :
    limbListValue ls ≠ 0 ↔ ls.any (fun l => l != 0) = true := by
  induction ls with
  | nil => simp [limbListValue]
  | cons l ls ih =>
    rw [limbListValue, List.any_cons, Bool.or_eq_true, ← ih, bne_iff_ne]
    omega

theorem allLimbs_limbList (v : Magnitude) : AllLimbs (limbList v) := by
  simp only [AllLimbs, limbList, List.forall_mem_cons]
  exact ⟨(limb v 0).isLt, (limb v 1).isLt, (limb v 2).isLt, (limb v 3).isLt, nofun⟩

@[simp] theorem limbList_length (v : Magnitude) : (limbList v).length = 4 := rfl

/-- Two lists of limbs of the same length. -/
abbrev LimbPairs (xs ys : List Nat) : Prop := List.Forall₂ (fun x y => x < 2 ^ 64 ∧ y < 2 ^ 64) xs ys

theorem limbPairs_iff (xs ys : List Nat) :
    LimbPairs xs ys ↔ xs.length = ys.length ∧ AllLimbs xs ∧ AllLimbs ys := by
  constructor
  · intro h
    induction h with
    | nil => exact ⟨rfl, nofun, nofun⟩
    | cons hxy _ ih =>
      obtain ⟨hlen, hxs, hys⟩ := ih
      exact ⟨congrArg (· + 1) hlen, List.forall_mem_cons.2 ⟨hxy.1, hxs⟩, List.forall_mem_cons.2 ⟨hxy.2, hys⟩⟩
  · rintro ⟨hlen, hxs, hys⟩
    refine List.forall₂_iff_zip.2 ⟨hlen, fun hmem => ?_⟩
    obtain ⟨hx, hy⟩ := List.of_mem_zip hmem
    exact ⟨hxs _ hx, hys _ hy⟩

/-- Four limbs and what was carried out of them. -/
theorem limbListValue_concat_of_four {ls : List Nat} (hlen : ls.length = 4) (c : Nat) :
    limbListValue (ls ++ [c]) = limbListValue ls + 2 ^ 256 * c := by
  rw [limbListValue_append, limbListValue_singleton, hlen]

theorem limbListValue_lt_of_four {ls : List Nat} (hlen : ls.length = 4) (h : AllLimbs ls) :
    limbListValue ls < 2 ^ 256 := by
  have hlt := limbListValue_lt h
  rwa [hlen] at hlt

/-! ### ADD (`40_kernel.md` R102) -/

/-- The carry chain gives as many limbs as it takes, and with the last carry over them the exact sum. -/
theorem addChain_spec {xs ys : List Nat} (h : LimbPairs xs ys) (c : Nat) :
    (addChain c xs ys).1.length = xs.length ∧ AllLimbs (addChain c xs ys).1 ∧
      limbListValue ((addChain c xs ys).1 ++ [(addChain c xs ys).2]) = limbListValue xs + limbListValue ys + c := by
  induction h generalizing c with
  | nil => simp [addChain, limbListValue, AllLimbs]
  | @cons x y xs ys _ _ ih =>
    obtain ⟨hlen, hlimbs, hvalue⟩ := ih ((x + y + c) / 2 ^ 64)
    refine ⟨congrArg (· + 1) hlen, List.forall_mem_cons.2 ⟨Nat.mod_lt _ (by norm_num), hlimbs⟩, ?_⟩
    simp only [addChain, List.cons_append, limbListValue, hvalue]
    omega

/-- Settles O50: the four limbs are the sum modulo `2^256`, as the chain's value is the sum and the carry its part from
`2^256` on. -/
theorem addDatapathConforms : Obligations.AddDatapathConforms := by
  intro x y
  obtain ⟨hlen, hlimbs, hvalue⟩ := addChain_spec (limbList_forall₂ x y) 0
  have hlt := limbListValue_lt_of_four hlen hlimbs
  rw [limbListValue_concat_of_four hlen] at hvalue
  simp only [limbListValue_limbList] at hvalue
  have hsum : BitVec.ofNat 256 (limbListValue (addChain 0 (limbList x) (limbList y)).1) = sumOf x y := by
    apply BitVec.eq_of_toNat_eq
    rw [BitVec.toNat_ofNat, sumOf_toNat]
    omega
  have hcarry : (addChain 0 (limbList x) (limbList y)).2 ≠ 0 ↔ 2 ^ 256 ≤ x.toNat + y.toNat := by omega
  simp only [refAdd, hsum, hcarry, carryOut]

/-! ### SUB (`40_kernel.md` R105) -/

/-- The borrow chain's limbs are the exact difference, with the last borrow taken from over them. -/
theorem subChain_spec {xs ys : List Nat} (h : LimbPairs xs ys) {b : Nat} (hb : b ≤ 1) :
    (limbListValue (subChain b xs ys).1 : Int) =
      limbListValue xs - limbListValue ys - b + 2 ^ (64 * xs.length) * (subChain b xs ys).2 := by
  induction h generalizing b with
  | nil => simp [subChain, limbListValue]
  | @cons x y xs ys hxy _ ih =>
    have hborrow : (if (x : Int) - y - b < 0 then 1 else 0) ≤ 1 := by split <;> omega
    have hrest := ih hborrow
    have hlimb : ((((x : Int) - y - b) % 2 ^ 64).toNat : Int) =
        x - y - b + 2 ^ 64 * (if (x : Int) - y - b < 0 then 1 else 0 : Nat) := by
      split <;> omega
    simp only [subChain, limbListValue, List.length_cons, Nat.mul_succ, pow_add]
    push_cast [hrest] at hlimb ⊢
    rw [hlimb]
    ring

/-- Settles O51: the four limbs are congruent to the exact difference modulo `2^256`. -/
theorem subDatapathConforms : Obligations.SubDatapathConforms := by
  intro x y
  have hvalue := subChain_spec (limbList_forall₂ x y) (Nat.zero_le 1)
  simp only [limbListValue_limbList, limbList_length] at hvalue
  have hdifference : BitVec.ofNat 256 (limbListValue (subChain 0 (limbList x) (limbList y)).1) = differenceOf x y := by
    apply BitVec.eq_of_toNat_eq
    rw [BitVec.toNat_ofNat, differenceOf, BitVec.toNat_ofInt, Int.ofNat_eq_natCast, Int.ofNat_eq_natCast]
    omega
  exact Prod.ext hdifference (refSub_borrow x y)

/-! ### MUL (`40_kernel.md` R111) -/

/-- A row of the schoolbook product gives as many limbs as it takes, and with its carry over them the exact product and
sum; the carry is a limb. -/
theorem mulRow_spec {x : Nat} (hx : x < 2 ^ 64) {ys acc : List Nat} (h : LimbPairs ys acc) {c : Nat}
    (hc : c < 2 ^ 64) :
    (mulRow x ys acc c).1.length = ys.length ∧ AllLimbs ((mulRow x ys acc c).1 ++ [(mulRow x ys acc c).2]) ∧
      limbListValue ((mulRow x ys acc c).1 ++ [(mulRow x ys acc c).2]) =
        x * limbListValue ys + limbListValue acc + c := by
  induction h generalizing c with
  | nil => exact ⟨rfl, List.forall_mem_cons.2 ⟨hc, nofun⟩, by simp [mulRow, limbListValue]⟩
  | @cons y a ys acc hya _ ih =>
    have hproduct : x * y ≤ (2 ^ 64 - 1) * (2 ^ 64 - 1) := Nat.mul_le_mul (by omega) (by omega)
    have hcarry : (x * y + a + c) / 2 ^ 64 < 2 ^ 64 := by omega
    obtain ⟨hlen, hlimbs, hvalue⟩ := ih hcarry
    refine ⟨congrArg (· + 1) hlen, List.forall_mem_cons.2 ⟨Nat.mod_lt _ (by norm_num), hlimbs⟩, ?_⟩
    simp only [mulRow, List.cons_append, limbListValue, hvalue, Nat.mul_add, Nat.mul_left_comm x]
    omega

/-- The columns are limbs, one for each limb of the factors, and their value is the exact product and sum. -/
theorem mulColumns_spec {ys xs acc : List Nat} (hxs : AllLimbs xs) (hne : ys ≠ []) (h : LimbPairs ys acc) :
    (mulColumns ys xs acc).length = xs.length + ys.length ∧ AllLimbs (mulColumns ys xs acc) ∧
      limbListValue (mulColumns ys xs acc) = limbListValue xs * limbListValue ys + limbListValue acc := by
  induction xs generalizing acc with
  | nil =>
    obtain ⟨hlen, -, hacc⟩ := (limbPairs_iff ys acc).1 h
    exact ⟨by rw [List.length_nil, Nat.zero_add, hlen]; rfl, hacc, by simp [mulColumns, limbListValue]⟩
  | cons x xs ih =>
    obtain ⟨hx, hxs⟩ := List.forall_mem_cons.1 hxs
    obtain ⟨hlen, hlimbs, hvalue⟩ := mulRow_spec hx h (c := 0) (by norm_num)
    obtain ⟨-, hys, -⟩ := (limbPairs_iff ys acc).1 h
    rcases hrow : (mulRow x ys acc 0).1 with _ | ⟨d, rest⟩
    · rw [hrow] at hlen
      exact absurd (List.length_eq_zero_iff.1 hlen.symm) hne
    · rw [hrow] at hlen hlimbs hvalue
      obtain ⟨hd, hrest⟩ := List.forall_mem_cons.1 hlimbs
      have hpairs : LimbPairs ys (rest ++ [(mulRow x ys acc 0).2]) :=
        (limbPairs_iff _ _).2 ⟨by rw [List.length_append]; exact hlen.symm, hys, hrest⟩
      obtain ⟨hlen', hlimbs', hvalue'⟩ := ih hxs hpairs
      have hcolumns : mulColumns ys (x :: xs) acc = d :: mulColumns ys xs (rest ++ [(mulRow x ys acc 0).2]) := by
        simp only [mulColumns, hrow]
      rw [hcolumns]
      refine ⟨by rw [List.length_cons, List.length_cons, hlen']; omega, List.forall_mem_cons.2 ⟨hd, hlimbs'⟩, ?_⟩
      rw [limbListValue, hvalue', limbListValue, Nat.add_mul, Nat.mul_add, Nat.mul_assoc]
      rw [List.cons_append, limbListValue] at hvalue
      omega

/-- Settles O52: the low four of the eight columns are the product modulo `2^256`, and the high four its part from
`2^256` on. -/
theorem mulDatapathConforms : Obligations.MulDatapathConforms := by
  intro x y
  obtain ⟨hlen, hlimbs, hvalue⟩ := mulColumns_spec (ys := limbList y) (acc := [0, 0, 0, 0]) (allLimbs_limbList x)
    nofun ((limbPairs_iff _ _).2 ⟨rfl, allLimbs_limbList y, by simp [AllLimbs]⟩)
  simp only [limbListValue_limbList, limbList_length] at hlen hvalue
  generalize hcolumns : mulColumns (limbList y) (limbList x) [0, 0, 0, 0] = columns at hlen hlimbs hvalue
  have hlow : (columns.take 4).length = 4 := by rw [List.length_take, hlen]; rfl
  have hlt := limbListValue_lt_of_four hlow fun l hl => hlimbs l (List.mem_of_mem_take hl)
  have hsplit := limbListValue_append (columns.take 4) (columns.drop 4)
  rw [List.take_append_drop, hlow, hvalue] at hsplit
  simp only [limbListValue] at hsplit
  have hproduct : BitVec.ofNat 256 (limbListValue (columns.take 4)) = productOf x y := by
    apply BitVec.eq_of_toNat_eq
    rw [BitVec.toNat_ofNat, productOf_toNat]
    omega
  have hoverflow : ((columns.drop 4).any fun l => l != 0) = mulOverflow x y := by
    rw [Bool.eq_iff_iff, ← limbListValue_ne_zero_iff, mulOverflow_eq_true_iff]
    omega
  simp only [refMul, hcolumns, hproduct, hoverflow]

end Sys2Proof.Machine
end

section
/-! Proofs about the reference datapaths of the codec: chunks of 19 digits give the value of a text (`42_codec.md` R143,
R144) and the text of a value (R151). -/

namespace Sys2Proof.Machine

/-! ### PARSE (`42_codec.md` R143) -/

/-- The value of all chunks of `s` from chunk `i` up, each times its power of ten. -/
def chunksValue (s : List Byte) (i : Nat) : Nat :=
  decimalValue (s.take (s.length - chunkSize * i)) * 10 ^ (chunkSize * i)

theorem chunksValue_zero (s : List Byte) : chunksValue s 0 = decimalValue s := by
  rw [chunksValue, Nat.mul_zero, Nat.sub_zero, List.take_length, pow_zero, Nat.mul_one]

/-- Over the last chunk there is nothing. -/
theorem chunksValue_of_le {s : List Byte} {n : Nat} (h : s.length ≤ chunkSize * n) : chunksValue s n = 0 := by
  rw [chunksValue, Nat.sub_eq_zero_of_le h, List.take_zero]
  exact Nat.zero_mul _

/-- The digits from chunk `i` up are those from chunk `i + 1` up, and then chunk `i`. -/
theorem take_append_chunk (s : List Byte) (i : Nat) :
    s.take (s.length - chunkSize * (i + 1)) ++ chunk s i = s.take (s.length - chunkSize * i) := by
  have hle : s.length - chunkSize * (i + 1) ≤ s.length - chunkSize * i := by
    simp only [chunkSize]
    omega
  rw [chunk, ← Nat.min_eq_left hle, ← List.take_take, Nat.min_eq_left hle, List.take_append_drop]

/-- A chunk with digits over it is full. -/
theorem decimalValue_take_mul_chunk (s : List Byte) (i : Nat) :
    decimalValue (s.take (s.length - chunkSize * (i + 1))) * 10 ^ (chunk s i).length =
      decimalValue (s.take (s.length - chunkSize * (i + 1))) * 10 ^ chunkSize := by
  rcases Nat.lt_or_ge (chunkSize * (i + 1)) s.length with hmore | hlast
  · have hfull : (chunk s i).length = chunkSize := by
      rw [chunk, List.length_drop, List.length_take]
      simp only [chunkSize] at hmore ⊢
      omega
    rw [hfull]
  · rw [Nat.sub_eq_zero_of_le hlast, List.take_zero]
    simp [decimalValue]

theorem chunksValue_succ (s : List Byte) (i : Nat) :
    chunksValue s i = chunksValue s (i + 1) + decimalValue (chunk s i) * 10 ^ (chunkSize * i) := by
  rw [chunksValue, ← take_append_chunk, decimalValue_append, decimalValue_take_mul_chunk, chunksValue, Nat.mul_succ,
    pow_add]
  ring

theorem chunksValue_antitone (s : List Byte) : Antitone (chunksValue s) := by
  refine antitone_nat_of_succ_le fun i => ?_
  rw [chunksValue_succ s i]
  exact Nat.le_add_right _ _

/-- The powers are those of the chunks' places (`10_state.md` R35). -/
theorem chunkPower_toNat {i : Nat} (hi : i < 5) : (chunkPower i).toNat = 10 ^ (chunkSize * i) := by
  interval_cases i <;> decide

/-- One round of the multiply-accumulate on chunk `i`: the value so far, and whether anything has overflowed. -/
def parseRound (s : List Byte) (a : Magnitude × Bool) (i : Nat) : Magnitude × Bool :=
  let c := BitVec.ofNat 256 (decimalValue (chunk s i))
  let prod := productOf c (chunkPower i)
  (sumOf a.1 prod, a.2 || mulOverflow c (chunkPower i) || carryOut a.1 prod)

theorem refParseDigits_eq (s : List Byte) : refParseDigits s =
    (List.range ((s.length + (chunkSize - 1)) / chunkSize)).reverse.foldl (parseRound s) (0, false) := rfl

/-- A round adds its chunk at its place, and overflows nowhere if the value fits. -/
theorem parseRound_chunksValue {s : List Byte} {i : Nat} (hi : i < 5) (hfits : chunksValue s i < 2 ^ 256) :
    parseRound s (BitVec.ofNat 256 (chunksValue s (i + 1)), false) i = (BitVec.ofNat 256 (chunksValue s i), false) := by
  have hsucc := chunksValue_succ s i
  have hpower := chunkPower_toNat hi
  generalize hc : BitVec.ofNat 256 (decimalValue (chunk s i)) = c
  generalize ha : BitVec.ofNat 256 (chunksValue s (i + 1)) = a
  have hcval : c.toNat = decimalValue (chunk s i) := by
    have hle : decimalValue (chunk s i) ≤ decimalValue (chunk s i) * 10 ^ (chunkSize * i) :=
      Nat.le_mul_of_pos_right _ (by positivity)
    rw [← hc, BitVec.toNat_ofNat, Nat.mod_eq_of_lt (by omega)]
  have haval : a.toNat = chunksValue s (i + 1) := by
    rw [← ha, BitVec.toNat_ofNat, Nat.mod_eq_of_lt (by omega)]
  have hmul : mulOverflow c (chunkPower i) = false := by
    rw [mulOverflow_eq_false_iff, hcval, hpower]
    omega
  have hprod := productOf_toNat_of_not_overflow hmul
  rw [hcval, hpower] at hprod
  have hcarry : carryOut a (productOf c (chunkPower i)) = false := by
    rw [carryOut_eq_false_iff, haval, hprod, ← hsucc]
    exact hfits
  have hsum : sumOf a (productOf c (chunkPower i)) = BitVec.ofNat 256 (chunksValue s i) := by
    rw [sumOf, haval, hprod, ← hsucc]
  simp only [parseRound, hc, hmul, hcarry, hsum, Bool.or_self]

theorem foldl_parseRound {s : List Byte} (hfits : decimalValue s < 2 ^ 256) {n : Nat} (hn : n ≤ 5) :
    (List.range n).reverse.foldl (parseRound s) (BitVec.ofNat 256 (chunksValue s n), false) =
      (BitVec.ofNat 256 (decimalValue s), false) := by
  induction n with
  | zero => rw [chunksValue_zero]; rfl
  | succ n ih =>
    have hround : chunksValue s n < 2 ^ 256 :=
      (chunksValue_antitone s (Nat.zero_le n)).trans_lt (by rwa [chunksValue_zero])
    rw [List.range_succ, List.reverse_append, List.reverse_singleton, List.singleton_append, List.foldl_cons,
      parseRound_chunksValue hn hround, ih (Nat.le_of_succ_le hn)]

/-- Settles O56: after each round the accumulator holds the value of the chunks so far, which the value of the text
bounds. -/
theorem parseDatapathConforms : Obligations.ParseDatapathConforms := by
  intro s hlen _ hvalue
  have hfits : decimalValue s < 2 ^ 256 := by
    rw [maxMagnitude] at hvalue
    omega
  have hcover : s.length ≤ chunkSize * ((s.length + (chunkSize - 1)) / chunkSize) := by
    simp only [chunkSize]
    omega
  have hrounds : (s.length + (chunkSize - 1)) / chunkSize ≤ 5 := by
    simp only [chunkSize]
    omega
  have hfold := foldl_parseRound hfits hrounds
  rw [chunksValue_of_le hcover] at hfold
  rw [refParseDigits_eq]
  exact hfold

/-! ### FORMAT (`42_codec.md` R151) -/

theorem decimalText_eq_dec {w : Nat} (hw : w < 2 ^ 256) : decimalText w = dec (BitVec.ofNat 256 w) := by
  rw [dec, BitVec.toNat_ofNat, Nat.mod_eq_of_lt hw]

theorem decimalValue_decimalText {w : Nat} (hw : w < 2 ^ 256) : decimalValue (decimalText w) = w := by
  rw [decimalText_eq_dec hw, decimalValue_dec, BitVec.toNat_ofNat, Nat.mod_eq_of_lt hw]

theorem plainDigits_decimalText {w : Nat} (hw : w < 2 ^ 256) (h0 : w ≠ 0) : PlainDigits (decimalText w) := by
  rw [decimalText_eq_dec hw]
  refine plainDigits_dec ((magnitude_ne_zero_iff _).2 ?_)
  rw [BitVec.toNat_ofNat, Nat.mod_eq_of_lt hw]
  exact Nat.pos_of_ne_zero h0

/-- A chunk's text has at most 19 digits. -/
theorem decimalText_length_le {c : Nat} (hc : c < 10 ^ chunkSize) : (decimalText c).length ≤ chunkSize := by
  have hfits : c < 2 ^ 256 := hc.trans (by norm_num [chunkSize])
  obtain ⟨-, -, -, hge⟩ := dec_length (BitVec.ofNat 256 c)
  rw [← decimalText_eq_dec hfits, BitVec.toNat_ofNat, Nat.mod_eq_of_lt hfits] at hge
  by_contra hlong
  rw [not_le, chunkSize] at hlong
  have hpow : 10 ^ chunkSize ≤ 10 ^ ((decimalText c).length - 1) :=
    Nat.pow_le_pow_right (by norm_num) (by rw [chunkSize]; omega)
  exact absurd hc (not_lt.2 (hpow.trans (hge (by omega))))

theorem paddedChunk_length {c : Nat} (hc : c < 10 ^ chunkSize) : (paddedChunk c).length = chunkSize := by
  rw [paddedChunk, List.length_append, List.length_replicate, Nat.sub_add_cancel (decimalText_length_le hc)]

theorem allDigits_paddedChunk {c : Nat} (hc : c < 2 ^ 256) : AllDigits (paddedChunk c) := by
  intro b hb
  rcases List.mem_append.1 hb with hzero | htext
  · rw [List.eq_of_mem_replicate hzero]
    decide
  · rw [decimalText_eq_dec hc] at htext
    exact allDigits_dec _ b htext

theorem decimalValue_replicate_zero (n : Nat) : decimalValue (List.replicate n charZero) = 0 := by
  induction n with
  | zero => rfl
  | succ n ih => rw [List.replicate_succ', decimalValue_concat, ih]; rfl

theorem decimalValue_paddedChunk {c : Nat} (hc : c < 2 ^ 256) : decimalValue (paddedChunk c) = c := by
  rw [paddedChunk, decimalValue_append, decimalValue_replicate_zero, Nat.zero_mul, Nat.zero_add,
    decimalValue_decimalText hc]

/-- The text of a value is the text of its part over the lowest chunk, and then that chunk, padded: both are digit
strings with no leading zero and of that value. -/
theorem decimalText_split {w : Nat} (hw : w < 2 ^ 256) (htop : w / 10 ^ 19 ≠ 0) :
    decimalText w = decimalText (w / 10 ^ 19) ++ paddedChunk (w % 10 ^ 19) := by
  have hw0 : w ≠ 0 := fun h => htop (by rw [h, Nat.zero_div])
  have htopfits : w / 10 ^ 19 < 2 ^ 256 := (Nat.div_le_self _ _).trans_lt hw
  have hlow : w % 10 ^ 19 < 10 ^ chunkSize := Nat.mod_lt _ (by norm_num)
  have hlowfits : w % 10 ^ 19 < 2 ^ 256 := (Nat.mod_le _ _).trans_lt hw
  obtain ⟨hdigits, hhead⟩ := plainDigits_decimalText htopfits htop
  have hne : decimalText (w / 10 ^ 19) ≠ [] := by
    intro hnil
    have hvalue := decimalValue_decimalText htopfits
    rw [hnil] at hvalue
    exact htop hvalue.symm
  refine decimalValue_injOn (plainDigits_decimalText hw hw0) ⟨?digits, ?head⟩ ?value
  case digits =>
    exact List.forall_mem_append.2 ⟨hdigits, allDigits_paddedChunk hlowfits⟩
  case head => rwa [List.head?_append_of_ne_nil _ hne]
  case value =>
    rw [decimalValue_append, decimalValue_decimalText hw, decimalValue_decimalText htopfits, paddedChunk_length hlow,
      decimalValue_paddedChunk hlowfits, chunkSize]
    exact (Nat.div_add_mod' w (10 ^ 19)).symm

/-- The text of chunks that come least significant first: only the most significant one is not padded. -/
def textOfChunks (chunks : List Nat) : List Byte :=
  match chunks.reverse with
  | [] => []
  | top :: rest => decimalText top ++ rest.flatMap paddedChunk

theorem textOfChunks_cons (c : Nat) {chunks : List Nat} (hne : chunks ≠ []) :
    textOfChunks (c :: chunks) = textOfChunks chunks ++ paddedChunk c := by
  rcases hrev : chunks.reverse with _ | ⟨top, rest⟩
  · exact absurd (List.reverse_eq_nil_iff.1 hrev) hne
  · simp [textOfChunks, hrev]

theorem formatChunks_ne_nil (fuel w : Nat) : formatChunks (fuel + 1) w ≠ [] := by
  rw [formatChunks]
  split <;> exact List.cons_ne_nil _ _

/-- Repeated division by `10^19` gives the chunks of the text of a value that has no more than `fuel` of them. -/
theorem textOfChunks_formatChunks {fuel w : Nat} (hw : w < 2 ^ 256) (hfuel : w < (10 ^ 19) ^ (fuel + 1)) :
    textOfChunks (formatChunks (fuel + 1) w) = decimalText w := by
  induction fuel generalizing w with
  | zero =>
    rw [zero_add, pow_one] at hfuel
    rw [formatChunks, if_pos (Nat.div_eq_of_lt hfuel), Nat.mod_eq_of_lt hfuel]
    simp [textOfChunks]
  | succ fuel ih =>
    by_cases htop : w / 10 ^ 19 = 0
    · rw [formatChunks, if_pos htop, Nat.mod_eq_of_lt (Nat.lt_of_div_eq_zero (by norm_num) htop)]
      simp [textOfChunks]
    · have hrest : w / 10 ^ 19 < (10 ^ 19) ^ (fuel + 1) := by
        rw [Nat.div_lt_iff_lt_mul (by norm_num), ← pow_succ]
        exact hfuel
      rw [formatChunks, if_neg htop, textOfChunks_cons _ (formatChunks_ne_nil fuel _),
        ih ((Nat.div_le_self _ _).trans_lt hw) hrest, ← decimalText_split hw htop]

/-- Settles O57: five chunks hold every magnitude. -/
theorem formatDatapathConforms : Obligations.FormatDatapathConforms := by
  intro v
  have hchunks : refFormat v = textOfChunks (formatChunks 5 v.toNat) := rfl
  rw [hchunks, dec]
  exact textOfChunks_formatChunks v.isLt (v.isLt.trans (by norm_num))

end Sys2Proof.Machine
end

section
/-! Proofs about the 2-by-1 division by reciprocal and the single-limb fast path of the reference division engine
(`41_division.md` R126; the internals of the former are PRESUMED, log entry 14). -/

namespace Sys2Proof.Machine

/-! ### Quotient and remainder by their characterisation -/

theorem eq_div_mod_iff {q r x y : Nat} (hr : r < y) : (q, r) = (x / y, x % y) ↔ q * y + r = x := by
  have h := Nat.div_mod_unique (a := x) (c := r) (d := q) (Nat.zero_lt_of_lt hr)
  rw [Prod.mk.injEq, eq_comm (a := q), eq_comm (a := r), h, and_iff_left hr, Nat.mul_comm, Nat.add_comm]

/-! ### The reciprocal (`41_division.md` R126) -/

/-- The reciprocal with its implicit leading bit is `(2^128 − 1) / d`: what is missing to `2^128` is 1 to `d`. -/
theorem reciprocal_spec {d : Nat} (hd : 0 < d) (hlt : d < 2 ^ 64) :
    ∃ k, 1 ≤ k ∧ k ≤ d ∧ (2 ^ 64 + reciprocal d) * d + k = 2 ^ 128 := by
  have hge : 2 ^ 64 ≤ (2 ^ 128 - 1) / d := (Nat.le_div_iff_mul_le hd).2 (by omega)
  have hm : 2 ^ 64 + reciprocal d = (2 ^ 128 - 1) / d := Nat.add_sub_of_le hge
  have hdivmod := Nat.div_add_mod' (2 ^ 128 - 1) d
  have hmod := Nat.mod_lt (2 ^ 128 - 1) hd
  rw [hm]
  generalize (2 ^ 128 - 1) % d = r at hdivmod hmod
  exact ⟨r + 1, by omega, by omega, by omega⟩

/-- The estimated quotient digit: the dividend's high limb times the reciprocal, and the low limb. It fits two limbs. -/
theorem estimate_lt {d u1 u0 m k : Nat} (hm : m * d + k = 2 ^ 128) (hge : 2 ^ 64 ≤ m) (hk : 1 ≤ k) (hu1 : u1 < d)
    (hu0 : u0 < 2 ^ 64) : m * u1 + u0 < 2 ^ 128 := by
  have hle : m * (u1 + 1) ≤ m * d := Nat.mul_le_mul_left m hu1
  rw [Nat.mul_succ] at hle
  omega

/-- The remainder that the estimate plus 1 leaves, scaled by `2^64`. -/
theorem estimate_remainder {d u1 u0 m k q1 q0 : Int} (hm : m * d + k = 2 ^ 128)
    (hq : m * u1 + u0 = q1 * 2 ^ 64 + q0) :
    2 ^ 64 * (u1 * 2 ^ 64 + u0 - (q1 + 1) * d) = u1 * k + u0 * (2 ^ 64 - d) + q0 * d - 2 ^ 64 * d := by
  linear_combination (-u1) * hm + d * hq

/-- The bounds of that remainder, from which the two corrections follow. -/
theorem estimate_remainder_bounds {d u1 u0 k q0 r : Int} (hd : 0 < d) (hlt : d < 2 ^ 64) (hu1 : 0 ≤ u1)
    (hu1' : u1 < d) (hu0 : 0 ≤ u0) (hu0' : u0 < 2 ^ 64) (hk : 1 ≤ k) (hk' : k ≤ d) (hq0 : 0 ≤ q0) (hq0' : q0 < 2 ^ 64)
    (hr : 2 ^ 64 * r = u1 * k + u0 * (2 ^ 64 - d) + q0 * d - 2 ^ 64 * d) :
    -d ≤ r ∧ q0 - 2 ^ 64 < r ∧ (r < q0 ∨ r < 2 ^ 64 - d) := by
  have hlow : 0 ≤ u1 * k + u0 * (2 ^ 64 - d) := by
    have h1 : 0 ≤ u1 * k := by positivity
    have h2 : 0 ≤ u0 * (2 ^ 64 - d) := mul_nonneg hu0 (by omega)
    omega
  have hq0d : 0 ≤ q0 * d := by positivity
  refine ⟨by omega, ?above, ?below⟩
  case above =>
    have h : 0 < (2 ^ 64 - q0) * (2 ^ 64 - d) := mul_pos (by omega) (by omega)
    by_contra hr'
    nlinarith
  case below =>
    by_contra hr'
    obtain ⟨hr1, hr2⟩ := not_or.1 hr'
    have h1 : u1 * k ≤ (d - 1) * d := mul_le_mul (by omega) hk' (by omega) (by omega)
    have h2 : u0 * (2 ^ 64 - d) ≤ (2 ^ 64 - 1) * (2 ^ 64 - d) := mul_le_mul_of_nonneg_right (by omega) (by omega)
    have h3 : q0 * d ≤ r * d := mul_le_mul_of_nonneg_right (by omega) hd.le
    have h4 : (2 ^ 64 - d) * (2 ^ 64 - d) ≤ r * (2 ^ 64 - d) := mul_le_mul_of_nonneg_right (by omega) (by omega)
    nlinarith

/-! ### The 2-by-1 division (`41_division.md` R126) -/

/-- The two corrections of `div21`: down if the remainder wrapped over the estimate's low limb, then up if it is not
below the divisor. -/
def div21Correct (d q1 q0 r : Nat) : Nat × Nat :=
  let qr := if q0 < r then ((q1 + (2 ^ 64 - 1)) % 2 ^ 64, (r + d) % 2 ^ 64) else (q1, r)
  if d ≤ qr.2 then (qr.1 + 1, qr.2 - d) else qr

theorem div21_eq_div21Correct {u1 u0 d v e : Nat} (he : (v * u1 + (u1 * 2 ^ 64 + u0)) % 2 ^ 128 = e) :
    div21 u1 u0 d v = div21Correct d ((e / 2 ^ 64 + 1) % 2 ^ 64) (e % 2 ^ 64)
      (((u0 : Int) - (((e / 2 ^ 64 + 1) % 2 ^ 64 : Nat) : Int) * d) % 2 ^ 64).toNat := by
  subst he
  rfl

/-- The corrections make the estimate exact: a negative remainder has wrapped, and the estimate plus 1 was one too
many; a remainder that is not negative is less than two divisors. -/
theorem div21Correct_exact {x d q q0 r : Nat} (hnorm : 2 ^ 63 ≤ d) (hd : d < 2 ^ 64) (hq : q < 2 ^ 64)
    (hx : x < 2 ^ 64 * d) {rem : Int} (hrem : rem = x - (q + 1) * d) (hlow : -d ≤ rem)
    (habove : (q0 : Int) - 2 ^ 64 < rem) (hbelow : rem < q0 ∨ rem < 2 ^ 64 - d) (hq0 : q0 < 2 ^ 64)
    (hr : r = (rem % 2 ^ 64).toNat) : div21Correct d ((q + 1) % 2 ^ 64) q0 r = (x / d, x % d) := by
  have hmul : ((q : Int) + 1) * d = ((q * d : Nat) : Int) + d := by push_cast; ring
  rw [hmul] at hrem
  rcases lt_or_ge rem 0 with hneg | hpos
  · have hwrapped : (r : Int) = rem + 2 ^ 64 := by omega
    have hdown : ((q + 1) % 2 ^ 64 + (2 ^ 64 - 1)) % 2 ^ 64 = q := by omega
    have hback : ((r + d) % 2 ^ 64 : Int) = rem + d := by omega
    have hback' : (r + d) % 2 ^ 64 < d := by omega
    simp only [div21Correct, if_pos (show q0 < r by omega), hdown, if_neg hback'.not_ge]
    exact (eq_div_mod_iff hback').2 (by omega)
  · have hkept : (r : Int) = rem := by omega
    have hq1 : q + 1 < 2 ^ 64 := by
      by_contra hmax
      have hall : q = 2 ^ 64 - 1 := by omega
      subst hall
      omega
    have hvalue : (q + 1) * d + r = x := by
      rw [Nat.add_mul, Nat.one_mul]
      omega
    rw [Nat.mod_eq_of_lt hq1]
    by_cases hdown : q0 < r
    · have hback : (r + d) % 2 ^ 64 = r + d := Nat.mod_eq_of_lt (by omega)
      have hdown' : (q + 1 + (2 ^ 64 - 1)) % 2 ^ 64 = q := by omega
      simp only [div21Correct, if_pos hdown, hback, hdown', if_pos (Nat.le_add_left d r), Nat.add_sub_cancel]
      exact (eq_div_mod_iff (by omega)).2 hvalue
    · simp only [div21Correct, if_neg hdown]
      split
      · refine (eq_div_mod_iff (by omega)).2 ?_
        rw [Nat.add_mul, Nat.one_mul]
        omega
      · exact (eq_div_mod_iff (by omega)).2 hvalue

/-- Settles O53: the estimate fits two limbs, the remainder it leaves is within the bounds, and so the corrections make
it exact. -/
theorem div21IsExact : Obligations.Div21IsExact := by
  intro u1 u0 d hnorm hd hu1 hu0
  obtain ⟨k, hk1, hkd, hm⟩ := reciprocal_spec (by omega) hd
  generalize reciprocal d = v at hm ⊢
  have hlt := estimate_lt hm (Nat.le_add_right _ v) hk1 hu1 hu0
  have hsum : v * u1 + (u1 * 2 ^ 64 + u0) = (2 ^ 64 + v) * u1 + u0 := by ring
  rw [div21_eq_div21Correct (by rw [hsum, Nat.mod_eq_of_lt hlt])]
  generalize he : (2 ^ 64 + v) * u1 + u0 = e at hlt ⊢
  have hsplit : e = e / 2 ^ 64 * 2 ^ 64 + e % 2 ^ 64 := (Nat.div_add_mod' e _).symm
  have hq0 : e % 2 ^ 64 < 2 ^ 64 := Nat.mod_lt _ (by norm_num)
  have hq : e / 2 ^ 64 < 2 ^ 64 := by omega
  generalize e / 2 ^ 64 = q at hsplit hq ⊢
  generalize e % 2 ^ 64 = q0 at hsplit hq0 ⊢
  have hscaled := estimate_remainder (d := d) (u1 := u1) (u0 := u0) (m := 2 ^ 64 + v) (k := k) (q1 := q) (q0 := q0)
    (by exact_mod_cast hm) (by exact_mod_cast he.trans hsplit)
  obtain ⟨hlow, habove, hbelow⟩ := estimate_remainder_bounds (by omega) (by omega) (by omega) (by omega) (by omega)
    (by omega) (by omega) (by omega) (by omega) (by omega) hscaled
  refine div21Correct_exact hnorm hd hq (by omega) ?rem hlow habove hbelow hq0 ?wraps
  case rem => push_cast; ring
  case wraps =>
    have hwrap : (((q + 1) % 2 ^ 64 : Nat) : Int) + 2 ^ 64 * ((q + 1) / 2 ^ 64 : Nat) = q + 1 := by
      exact_mod_cast Nat.mod_add_div (q + 1) (2 ^ 64)
    refine congrArg Int.toNat (Int.modEq_iff_dvd.2 ⟨u1 - ((q + 1) / 2 ^ 64 : Nat) * d, ?_⟩)
    linear_combination (d : Int) * hwrap


/-! ### The single-limb fast path (`41_division.md` R126) -/

/-- Shifting a limb's leading bit to bit 63 makes it at least `2^63`, and keeps all that has it as top limb below
`2^64`. -/
theorem normalised_limb {t : Nat} (ht : 0 < t) (hlt : t < 2 ^ 64) :
    2 ^ 63 ≤ t * 2 ^ (63 - Nat.log2 t) ∧ (t + 1) * 2 ^ (63 - Nat.log2 t) ≤ 2 ^ 64 := by
  have hlog : Nat.log2 t < 64 := (Nat.log2_lt ht.ne').2 hlt
  have hlow : 2 ^ Nat.log2 t ≤ t := Nat.log2_self_le ht.ne'
  have hhigh : t + 1 ≤ 2 ^ (Nat.log2 t + 1) := Nat.lt_log2_self
  constructor
  · calc
      2 ^ 63 = 2 ^ Nat.log2 t * 2 ^ (63 - Nat.log2 t) := by rw [← pow_add]; congr 1; omega
      _ ≤ t * 2 ^ (63 - Nat.log2 t) := Nat.mul_le_mul_right _ hlow
  · calc
      (t + 1) * 2 ^ (63 - Nat.log2 t) ≤ 2 ^ (Nat.log2 t + 1) * 2 ^ (63 - Nat.log2 t) := Nat.mul_le_mul_right _ hhigh
      _ = 2 ^ 64 := by rw [← pow_add]; congr 1; omega

/-- A shift by less than 64 keeps a 256-bit dividend in five limbs, its top bit clear. -/
theorem shifted_lt {x s : Nat} (hx : x < 2 ^ 256) (hs : s ≤ 63) : x * 2 ^ s < 2 ^ 256 * 2 ^ 63 := by
  calc
    x * 2 ^ s < 2 ^ 256 * 2 ^ s := Nat.mul_lt_mul_of_pos_right hx (by positivity)
    _ ≤ 2 ^ 256 * 2 ^ 63 := Nat.mul_le_mul_left _ (Nat.pow_le_pow_right (by norm_num) hs)

/-- The normalised division gives the quotient, and the remainder shifted. -/
theorem shifted_div_mod (x y s : Nat) :
    (x * 2 ^ s / (y * 2 ^ s), x * 2 ^ s % (y * 2 ^ s) / 2 ^ s) = (x / y, x % y) := by
  rw [Nat.mul_div_mul_right _ _ (by positivity), Nat.mul_mod_mul_right, Nat.mul_div_cancel _ (by positivity)]

/-- The limbs of `u` from limb `i` up. -/
theorem div_pow_limb (u i : Nat) : u / 2 ^ (64 * i) = u / 2 ^ (64 * (i + 1)) * 2 ^ 64 + limbAt u i := by
  rw [limbAt, Nat.mul_succ, pow_add, ← Nat.div_div_eq_div_mul]
  exact (Nat.div_add_mod' _ _).symm

/-- One division of the fast path: quotient and remainder so far, and the next limb. -/
def fastStep (d : Nat) (a : Nat × Nat) (ui : Nat) : Nat × Nat :=
  let z := div21 a.2 ui d (reciprocal d)
  (a.1 * 2 ^ 64 + z.1, z.2)

/-- A division of the fast path takes the quotient and remainder of the limbs so far to those with the next limb. -/
theorem fastStep_exact {d : Nat} (hnorm : 2 ^ 63 ≤ d) (hd : d < 2 ^ 64) (u i : Nat) :
    fastStep d (u / 2 ^ (64 * (i + 1)) / d, u / 2 ^ (64 * (i + 1)) % d) (limbAt u i) =
      (u / 2 ^ (64 * i) / d, u / 2 ^ (64 * i) % d) := by
  have hlimb : limbAt u i < 2 ^ 64 := Nat.mod_lt _ (by norm_num)
  rw [div_pow_limb u i]
  generalize u / 2 ^ (64 * (i + 1)) = high
  generalize limbAt u i = low at hlimb ⊢
  have hmod : high % d < d := Nat.mod_lt _ (by omega)
  have hdiv := Nat.div_add_mod' high d
  rw [fastStep, div21IsExact _ _ d hnorm hd hmod hlimb]
  refine (eq_div_mod_iff (Nat.mod_lt _ (by omega))).2 ?_
  have hdiv' := Nat.div_add_mod' (high % d * 2 ^ 64 + low) d
  rw [Nat.add_mul, Nat.add_assoc, hdiv']
  linear_combination 2 ^ 64 * hdiv

/-- Five divisions take up all limbs of the dividend. -/
theorem foldl_fastStep {d u : Nat} (hnorm : 2 ^ 63 ≤ d) (hd : d < 2 ^ 64) (hu : u < 2 ^ 256 * 2 ^ 63) :
    [limbAt u 4, limbAt u 3, limbAt u 2, limbAt u 1, limbAt u 0].foldl (fastStep d) (0, 0) = (u / d, u % d) := by
  have hstep := fastStep_exact hnorm hd u
  have htop : u / 2 ^ (64 * (4 + 1)) = 0 := by
    rw [pow_mul]
    exact Nat.div_eq_of_lt (hu.trans (by norm_num))
  have hfirst := hstep 4
  rw [htop, Nat.zero_div, Nat.zero_mod] at hfirst
  rw [List.foldl_cons, hfirst, List.foldl_cons, hstep 3, List.foldl_cons, hstep 2, List.foldl_cons, hstep 1,
    List.foldl_cons, hstep 0, List.foldl_nil, Nat.mul_zero, pow_zero, Nat.div_one]

theorem refDivSmall_eq (x y : Nat) : refDivSmall x y =
    let s := 63 - Nat.log2 y
    let u := x * 2 ^ s
    let qr := [limbAt u 4, limbAt u 3, limbAt u 2, limbAt u 1, limbAt u 0].foldl (fastStep (y * 2 ^ s)) (0, 0)
    (qr.1, qr.2 / 2 ^ s) := rfl

/-- Settles O54: limb by limb on the shifted operands, and the shift taken back. -/
theorem fastPathConforms : Obligations.FastPathConforms := by
  intro x y hx hy hy'
  obtain ⟨hnorm, hnorm'⟩ := normalised_limb hy hy'
  have hu := shifted_lt hx (Nat.sub_le 63 (Nat.log2 y))
  have hd : y * 2 ^ (63 - Nat.log2 y) < 2 ^ 64 :=
    (Nat.mul_lt_mul_of_pos_right (Nat.lt_succ_self y) (by positivity)).trans_le hnorm'
  simp only [refDivSmall_eq, foldl_fastStep hnorm hd hu]
  exact shifted_div_mod x y _

end Sys2Proof.Machine
end

section
/-! Proofs about Algorithm D of the reference division engine (`41_division.md` R127 to R130; the estimate and the
correction of a digit are PRESUMED, log entry 14). A digit's estimate looks at the divisor's two top limbs and at the
dividend's three: `v1 * 2 ^ 64 + v2` and `num * 2 ^ 64 + u0` stand for them. -/

namespace Sys2Proof.Machine

/-! ### The estimate of a digit (`41_division.md` R128) -/

/-- The test of the correction says that the estimate is too large for the top limbs: a remainder of two limbs is never
below the product with the second limb. -/
theorem correction_test_iff {v1 v2 u0 num qhat rhat : Nat} (hv2 : v2 < 2 ^ 64) (hq : qhat < 2 ^ 64)
    (hnum : qhat * v1 + rhat = num) : (rhat < 2 ^ 64 ∧ rhat * 2 ^ 64 + u0 < qhat * v2) ↔
      num * 2 ^ 64 + u0 < qhat * (v1 * 2 ^ 64 + v2) := by
  have hbound : qhat * v2 ≤ (2 ^ 64 - 1) * (2 ^ 64 - 1) := Nat.mul_le_mul (by omega) (by omega)
  rw [Nat.mul_add, ← Nat.mul_assoc]
  omega

/-- The corrected digit is at most the estimate and fits the top limbs, and it is the largest such one, if `fuel`
corrections are enough. -/
theorem correctDigit_spec {fuel v1 v2 u0 num qhat rhat : Nat} (hv2 : v2 < 2 ^ 64) (hq : qhat < 2 ^ 64)
    (hnum : qhat * v1 + rhat = num)
    (hfuel : qhat * (v1 * 2 ^ 64 + v2) ≤ num * 2 ^ 64 + u0 + fuel * (v1 * 2 ^ 64 + v2)) :
    correctDigit fuel v1 v2 u0 qhat rhat ≤ qhat ∧
      correctDigit fuel v1 v2 u0 qhat rhat * (v1 * 2 ^ 64 + v2) ≤ num * 2 ^ 64 + u0 ∧
      ∀ q ≤ qhat, q * (v1 * 2 ^ 64 + v2) ≤ num * 2 ^ 64 + u0 → q ≤ correctDigit fuel v1 v2 u0 qhat rhat := by
  induction fuel generalizing qhat rhat with
  | zero => exact ⟨le_rfl, by rwa [Nat.zero_mul, Nat.add_zero] at hfuel, fun q hle _ => hle⟩
  | succ fuel ih =>
    have htest := correction_test_iff (u0 := u0) hv2 hq hnum
    rw [correctDigit]
    split
    · next hlarge =>
      have hlarge' := htest.1 hlarge
      obtain ⟨p, rfl⟩ : ∃ p, qhat = p + 1 := by
        refine Nat.exists_eq_succ_of_ne_zero ?_
        rintro rfl
        simp at hlarge'
      rw [Nat.add_sub_cancel]
      obtain ⟨hle, hfits, hmost⟩ := ih (qhat := p) (rhat := rhat + v1) (by omega) (by rw [← hnum]; ring)
        (by rw [Nat.add_mul, Nat.add_mul fuel] at hfuel; omega)
      refine ⟨hle.trans (Nat.le_succ p), hfits, fun q hq' hqfits => hmost q ?_ hqfits⟩
      by_contra hnot
      have hqp : q = p + 1 := by omega
      exact absurd (hqp ▸ hqfits) hlarge'.not_ge
    · next hsmall => exact ⟨le_rfl, not_lt.1 (mt htest.2 hsmall), fun q hle _ => hle⟩

/-- The digit of `41_division.md` R128, from the limbs it looks at: 2-by-1 division, clamp, at most two corrections. -/
def digitOf (v1 v2 num u0 : Nat) : Nat :=
  let qhat := if 2 ^ 64 ≤ num / v1 then 2 ^ 64 - 1 else num / v1
  correctDigit 2 v1 v2 u0 qhat (num - qhat * v1)

/-- For a normalised divisor the digit is the largest limb that fits the top limbs: the clamped estimate is at least
that, and at most two more. -/
theorem digitOf_spec {v1 v2 num u0 : Nat} (hnorm : 2 ^ 63 ≤ v1) (hv2 : v2 < 2 ^ 64) (hu0 : u0 < 2 ^ 64) :
    digitOf v1 v2 num u0 < 2 ^ 64 ∧ digitOf v1 v2 num u0 * (v1 * 2 ^ 64 + v2) ≤ num * 2 ^ 64 + u0 ∧
      ∀ q < 2 ^ 64, q * (v1 * 2 ^ 64 + v2) ≤ num * 2 ^ 64 + u0 → q ≤ digitOf v1 v2 num u0 := by
  rw [digitOf]
  generalize hqhat : (if 2 ^ 64 ≤ num / v1 then 2 ^ 64 - 1 else num / v1) = qhat
  have hq : qhat < 2 ^ 64 := by
    rw [← hqhat]
    split <;> omega
  have hle : qhat ≤ num / v1 := by
    rw [← hqhat]
    split <;> omega
  have hlargest : ∀ q < 2 ^ 64, q ≤ num / v1 → q ≤ qhat := by
    rw [← hqhat]
    intro q hlt hle
    split <;> omega
  have hmul : qhat * v1 ≤ num := (Nat.mul_le_mul_right _ hle).trans (Nat.div_mul_le_self num v1)
  have hsecond : qhat * v2 ≤ (2 ^ 64 - 1) * (2 ^ 64 - 1) := Nat.mul_le_mul (by omega) (by omega)
  have hfuel : qhat * (v1 * 2 ^ 64 + v2) ≤ num * 2 ^ 64 + u0 + 2 * (v1 * 2 ^ 64 + v2) := by
    rw [Nat.mul_add, ← Nat.mul_assoc]
    omega
  obtain ⟨hcorrected, hfits, hmost⟩ := correctDigit_spec hv2 hq (Nat.add_sub_cancel' hmul) hfuel
  refine ⟨hcorrected.trans_lt hq, hfits, fun q hlt hqfits => hmost q (hlargest q hlt ?_) hqfits⟩
  rw [Nat.le_div_iff_mul_le (by omega)]
  rw [Nat.mul_add, ← Nat.mul_assoc] at hqfits
  omega

/-- The largest limb that fits the top parts `v` and `w` of divisor and window is the exact digit of the whole, or one
more: what lies under the top parts is less than the divisor over a limb. -/
theorem largest_digit_close {digit v w p vlow wlow : Nat} (hlt : digit < 2 ^ 64) (hfits : digit * v ≤ w)
    (hmost : ∀ q < 2 ^ 64, q * v ≤ w → q ≤ digit) (hhigh : 2 ^ 64 ≤ v) (hvlow : vlow < p) (hwlow : wlow < p)
    (hwin : w * p + wlow < (v * p + vlow) * 2 ^ 64) :
    (w * p + wlow) / (v * p + vlow) ≤ digit ∧ digit ≤ (w * p + wlow) / (v * p + vlow) + 1 := by
  have hp : 0 < p := Nat.zero_lt_of_lt hvlow
  have hv : 0 < v * p + vlow := Nat.add_pos_left (Nat.mul_pos (by omega) hp) _
  constructor
  · refine hmost _ ((Nat.div_lt_iff_lt_mul hv).2 (by rwa [Nat.mul_comm (2 ^ 64)])) ?_
    generalize hq : (w * p + wlow) / (v * p + vlow) = q
    have hqv : q * (v * p + vlow) ≤ w * p + wlow := hq ▸ Nat.div_mul_le_self _ _
    have hqvp : q * v * p < (w + 1) * p := by nlinarith [Nat.zero_le (q * vlow)]
    exact Nat.lt_succ_iff.1 (Nat.lt_of_mul_lt_mul_right hqvp)
  · have hdv : digit * v * p ≤ w * p := Nat.mul_le_mul_right p hfits
    have hdl : digit * vlow ≤ v * p := Nat.mul_le_mul (hlt.le.trans hhigh) hvlow.le
    rw [← Nat.sub_le_iff_le_add, Nat.le_div_iff_mul_le hv, Nat.sub_mul, Nat.one_mul, Nat.sub_le_iff_le_add]
    calc
      digit * (v * p + vlow) = digit * v * p + digit * vlow := by ring
      _ ≤ w * p + wlow + (v * p + vlow) := by omega

/-! ### A digit of the quotient (`41_division.md` R129) -/

theorem limbAt_add (u i k : Nat) : limbAt u (i + k) = limbAt (u / 2 ^ (64 * i)) k := by
  rw [limbAt, limbAt, Nat.div_div_eq_div_mul, ← pow_add, Nat.mul_add]

theorem limbAt_zero (w : Nat) : limbAt w 0 = w % 2 ^ 64 := by rw [limbAt, Nat.mul_zero, pow_zero, Nat.div_one]

theorem limbAt_one (w : Nat) : limbAt w 1 = w / 2 ^ 64 % 2 ^ 64 := rfl

theorem limbAt_two (w : Nat) : limbAt w 2 = w / 2 ^ 128 % 2 ^ 64 := rfl

/-- The estimate reads the two top limbs of a divisor of `n` limbs, and the three of the window from limb `j` on. -/
theorem estimateDigit_eq {m v u j : Nat} (hv : v / 2 ^ (64 * m) < 2 ^ 128) (hu : u / 2 ^ (64 * (j + m)) < 2 ^ 192) :
    estimateDigit (m + 2) v u j = digitOf (v / 2 ^ (64 * m) / 2 ^ 64) (v / 2 ^ (64 * m) % 2 ^ 64)
      (u / 2 ^ (64 * (j + m)) / 2 ^ 64) (u / 2 ^ (64 * (j + m)) % 2 ^ 64) := by
  have hv1 : limbAt v (m + 2 - 1) = v / 2 ^ (64 * m) / 2 ^ 64 := by
    rw [show m + 2 - 1 = m + 1 by omega, limbAt_add, limbAt_one, Nat.mod_eq_of_lt]
    exact Nat.div_lt_of_lt_mul hv
  have hv2 : limbAt v (m + 2 - 2) = v / 2 ^ (64 * m) % 2 ^ 64 := by
    rw [show m + 2 - 2 = m + 0 by omega, limbAt_add, limbAt_zero]
  have hu0 : limbAt u (j + (m + 2) - 2) = u / 2 ^ (64 * (j + m)) % 2 ^ 64 := by
    rw [show j + (m + 2) - 2 = j + m + 0 by omega, limbAt_add, limbAt_zero]
  have hnum : limbAt u (j + (m + 2)) * 2 ^ 64 + limbAt u (j + (m + 2) - 1) = u / 2 ^ (64 * (j + m)) / 2 ^ 64 := by
    rw [show j + (m + 2) - 1 = j + m + 1 by omega, ← Nat.add_assoc j, limbAt_add, limbAt_add, limbAt_one, limbAt_two]
    generalize u / 2 ^ (64 * (j + m)) = w at hu ⊢
    omega
  rw [estimateDigit, hv1, hv2, hnum, hu0, digitOf]

/-- A normalised divisor of `n` limbs (`41_division.md` R127). -/
def Normalised (n v : Nat) : Prop := 2 ^ 63 ≤ v / 2 ^ (64 * (n - 1)) ∧ v / 2 ^ (64 * (n - 1)) < 2 ^ 64

theorem Normalised.mul_le {n v : Nat} (h : Normalised n v) (hn : 1 ≤ n) : v * 2 ^ 64 ≤ 2 ^ (64 * (n + 1)) := by
  obtain ⟨m, rfl⟩ := Nat.exists_eq_add_of_le' hn
  have hlt : v < 2 ^ 64 * 2 ^ (64 * m) := (Nat.div_lt_iff_lt_mul (by positivity)).1 h.2
  calc
    v * 2 ^ 64 ≤ 2 ^ 64 * 2 ^ (64 * m) * 2 ^ 64 := Nat.mul_le_mul_right _ hlt.le
    _ = 2 ^ (64 * (m + 1 + 1)) := by rw [← pow_add, ← pow_add]; congr 1; omega

/-- The estimate is the exact digit, or one more. -/
theorem estimateDigit_close {n v u j : Nat} (hn : 2 ≤ n) (hv : Normalised n v) (hu : u / 2 ^ (64 * j) < v * 2 ^ 64) :
    u / 2 ^ (64 * j) / v ≤ estimateDigit n v u j ∧ estimateDigit n v u j ≤ u / 2 ^ (64 * j) / v + 1 := by
  obtain ⟨m, rfl⟩ := Nat.exists_eq_add_of_le' hn
  obtain ⟨hnorm, hlimb⟩ := hv
  have hsplit : v / 2 ^ (64 * (m + 2 - 1)) = v / 2 ^ (64 * m) / 2 ^ 64 := by
    rw [Nat.div_div_eq_div_mul, ← pow_add]
    rfl
  rw [hsplit] at hnorm hlimb
  have hwindow : u / 2 ^ (64 * (j + m)) = u / 2 ^ (64 * j) / 2 ^ (64 * m) := by
    rw [Nat.div_div_eq_div_mul, ← pow_add, Nat.mul_add]
  have hp : 0 < 2 ^ (64 * m) := by positivity
  have htop : v / 2 ^ (64 * m) < 2 ^ 128 := by omega
  have hwin : u / 2 ^ (64 * (j + m)) < 2 ^ 192 := by
    rw [hwindow, Nat.div_lt_iff_lt_mul hp]
    rw [Nat.div_lt_iff_lt_mul hp] at htop
    omega
  rw [estimateDigit_eq htop hwin, hwindow]
  generalize u / 2 ^ (64 * j) = w at hu ⊢
  generalize 2 ^ (64 * m) = p at *
  obtain ⟨hlt, hfits, hmost⟩ := digitOf_spec (num := w / p / 2 ^ 64) hnorm (Nat.mod_lt (v / p) (by norm_num))
    (Nat.mod_lt (w / p) (by norm_num : 0 < 2 ^ 64))
  rw [Nat.div_add_mod', Nat.div_add_mod'] at hfits
  simp only [Nat.div_add_mod'] at hmost
  have hclose := largest_digit_close hlt hfits hmost (by omega) (Nat.mod_lt v hp) (Nat.mod_lt w hp)
    (by rwa [Nat.div_add_mod', Nat.div_add_mod'])
  rwa [Nat.div_add_mod', Nat.div_add_mod'] at hclose

/-- Multiply, subtract and add back turn an estimate that is exact or one more into the exact digit and remainder. -/
theorem addBack_exact {v w qhat : Nat} (hv : 0 < v) (hge : w / v ≤ qhat) (hle : qhat ≤ w / v + 1) :
    (if w < qhat * v then (qhat - 1, w + v - qhat * v) else (qhat, w - qhat * v)) = (w / v, w % v) := by
  have hdiv := Nat.div_add_mod' w v
  have hmod := Nat.mod_lt w hv
  rcases Nat.le_iff_lt_or_eq.1 hle with hexact | rfl
  · obtain rfl : qhat = w / v := by omega
    rw [if_neg (by omega)]
    exact Prod.ext rfl (by simp only; omega)
  · rw [Nat.add_mul, Nat.one_mul, if_pos (by omega)]
    exact Prod.ext (Nat.add_sub_cancel _ _) (by simp only; omega)

/-- A digit of the quotient: with the working remainder after it, it makes up the working remainder before it, and that
remainder is below the divisor at the digit's place. -/
theorem quotientDigit_spec {n v u j : Nat} (hn : 2 ≤ n) (hv : Normalised n v) (hu : u < v * 2 ^ (64 * (j + 1))) :
    (quotientDigit n v u j).1 * 2 ^ (64 * j) * v + (quotientDigit n v u j).2 = u ∧
      (quotientDigit n v u j).2 < v * 2 ^ (64 * j) := by
  have hp : 0 < 2 ^ (64 * j) := by positivity
  have hu' : u / 2 ^ (64 * j) < v * 2 ^ 64 := by
    rw [Nat.div_lt_iff_lt_mul hp, Nat.mul_assoc, ← pow_add, Nat.add_comm 64, ← Nat.mul_succ]
    exact hu
  have hvpos : 0 < v := Nat.pos_of_ne_zero (by rintro rfl; simp at hu)
  have hwindow : u / 2 ^ (64 * j) < 2 ^ (64 * (n + 1)) := hu'.trans_le (hv.mul_le (by omega))
  obtain ⟨hge, hle⟩ := estimateDigit_close hn hv hu'
  have hexact := addBack_exact hvpos hge hle
  simp only [quotientDigit, Nat.mod_eq_of_lt hwindow, hexact]
  have hdiv := Nat.div_add_mod' (u / 2 ^ (64 * j)) v
  have hmod := Nat.mod_lt (u / 2 ^ (64 * j)) hvpos
  have hlow := Nat.div_add_mod' u (2 ^ (64 * j))
  have hlow' := Nat.mod_lt u hp
  generalize u / 2 ^ (64 * j) = w at *
  generalize 2 ^ (64 * j) = p at *
  have hrest : u - w * p = u % p := by omega
  rw [hrest]
  constructor
  · calc
      w / v * p * v + (u % p + w % v * p) = (w / v * v + w % v) * p + u % p := by ring
      _ = u := by rw [hdiv, hlow]
  · calc
      u % p + w % v * p < (w % v + 1) * p := by rw [Nat.add_mul, Nat.one_mul]; omega
      _ ≤ v * p := Nat.mul_le_mul_right p hmod

/-! ### All digits (`41_division.md` R127, R130) -/

/-- One round of Algorithm D: the quotient so far, and the working remainder. -/
def digitRound (n v : Nat) (a : Nat × Nat) (j : Nat) : Nat × Nat :=
  let z := quotientDigit n v a.2 j
  (a.1 + z.1 * 2 ^ (64 * j), z.2)

/-- The rounds from digit `m - 1` down keep quotient times divisor plus working remainder, and end with the remainder
below the divisor. -/
theorem foldl_digitRound {n v x : Nat} (hn : 2 ≤ n) (hv : Normalised n v) {m : Nat} {a : Nat × Nat}
    (hsum : a.1 * v + a.2 = x) (hrem : a.2 < v * 2 ^ (64 * m)) :
    (List.range m).reverse.foldl (digitRound n v) a = (x / v, x % v) := by
  induction m generalizing a with
  | zero =>
    rw [Nat.mul_zero, pow_zero, Nat.mul_one] at hrem
    exact (eq_div_mod_iff hrem).2 hsum
  | succ m ih =>
    obtain ⟨hdigit, hrem'⟩ := quotientDigit_spec hn hv hrem
    rw [List.range_succ, List.reverse_append, List.reverse_singleton, List.singleton_append, List.foldl_cons]
    refine ih ?_ hrem'
    simp only [digitRound]
    rw [Nat.add_mul, Nat.add_assoc, hdigit, hsum]

theorem refAlgorithmD_eq (x y : Nat) : refAlgorithmD x y =
    let n := Nat.log2 y / 64 + 1
    let s := 63 - Nat.log2 (limbAt y (n - 1))
    let qu := (List.range (5 - n)).reverse.foldl (digitRound n (y * 2 ^ s)) (0, x * 2 ^ s)
    (qu.1, qu.2 / 2 ^ s) := rfl

/-- The top limb of a divisor, and that nothing is over it. -/
theorem topLimb_eq {y : Nat} (hy : y ≠ 0) : limbAt y (Nat.log2 y / 64) = y / 2 ^ (64 * (Nat.log2 y / 64)) ∧
    0 < y / 2 ^ (64 * (Nat.log2 y / 64)) ∧ y / 2 ^ (64 * (Nat.log2 y / 64)) < 2 ^ 64 := by
  have hlow : 2 ^ (64 * (Nat.log2 y / 64)) ≤ y :=
    (Nat.pow_le_pow_right (by norm_num) (Nat.mul_div_le _ _)).trans (Nat.log2_self_le hy)
  have hlt : y / 2 ^ (64 * (Nat.log2 y / 64)) < 2 ^ 64 := by
    rw [Nat.div_lt_iff_lt_mul (by positivity), ← pow_add]
    exact Nat.lt_log2_self.trans_le (Nat.pow_le_pow_right (by norm_num) (by omega))
  exact ⟨Nat.mod_eq_of_lt hlt, Nat.div_pos hlow (by positivity), hlt⟩

/-- The shift that normalises the top limb normalises the divisor. -/
theorem normalised_shift {y m : Nat} (hpos : 0 < y / 2 ^ (64 * m)) (hlt : y / 2 ^ (64 * m) < 2 ^ 64) :
    Normalised (m + 1) (y * 2 ^ (63 - Nat.log2 (y / 2 ^ (64 * m)))) := by
  obtain ⟨hge, hle⟩ := normalised_limb hpos hlt
  have hp : 0 < 2 ^ (64 * m) := by positivity
  have hdiv := Nat.div_add_mod' y (2 ^ (64 * m))
  have hmod := Nat.mod_lt y hp
  have hshift : 0 < 2 ^ (63 - Nat.log2 (y / 2 ^ (64 * m))) := by positivity
  rw [Normalised, Nat.add_sub_cancel, Nat.le_div_iff_mul_le hp, Nat.div_lt_iff_lt_mul hp]
  generalize 2 ^ (63 - Nat.log2 (y / 2 ^ (64 * m))) = shift at *
  generalize y / 2 ^ (64 * m) = top at *
  generalize 2 ^ (64 * m) = p at *
  constructor
  · calc
      2 ^ 63 * p ≤ top * shift * p := Nat.mul_le_mul_right p hge
      _ = top * p * shift := Nat.mul_right_comm _ _ _
      _ ≤ y * shift := Nat.mul_le_mul_right shift (by omega)
  · have hy : y < (top + 1) * p := by rw [Nat.add_mul, Nat.one_mul]; omega
    calc
      y * shift < (top + 1) * p * shift := Nat.mul_lt_mul_of_pos_right hy hshift
      _ = (top + 1) * shift * p := Nat.mul_right_comm _ _ _
      _ ≤ 2 ^ 64 * p := Nat.mul_le_mul_right p hle

/-- The first working remainder is below the divisor at the place over the first digit (`41_division.md` R127). -/
theorem dividend_lt {m u v : Nat} (hv : Normalised (m + 1) v) (hm : m ≤ 4) (hu : u < 2 ^ 256 * 2 ^ 63) :
    u < v * 2 ^ (64 * (4 - m)) := by
  have hge : 2 ^ 63 * 2 ^ (64 * m) ≤ v := (Nat.le_div_iff_mul_le (by positivity)).1 hv.1
  calc
    u < 2 ^ 63 * 2 ^ (64 * m) * 2 ^ (64 * (4 - m)) := by
      rwa [Nat.mul_assoc, ← pow_add, show 64 * m + 64 * (4 - m) = 256 by omega, Nat.mul_comm]
    _ ≤ v * 2 ^ (64 * (4 - m)) := Nat.mul_le_mul_right _ hge

/-- Settles O55: the rounds divide the shifted dividend by the normalised divisor, and the shift is taken back. -/
theorem algorithmDConforms : Obligations.AlgorithmDConforms := by
  intro x y hx hy hy'
  have hy0 : y ≠ 0 := by omega
  obtain ⟨htop, hpos, hlt⟩ := topLimb_eq hy0
  have hlog : 64 ≤ Nat.log2 y := (Nat.le_log2 hy0).2 hy
  have hlog' : Nat.log2 y < 256 := (Nat.log2_lt hy0).2 hy'
  simp only [refAlgorithmD_eq, Nat.add_sub_cancel, htop, show 5 - (Nat.log2 y / 64 + 1) = 4 - Nat.log2 y / 64 by omega]
  have hv := normalised_shift hpos hlt
  have hu := shifted_lt hx (Nat.sub_le 63 (Nat.log2 (y / 2 ^ (64 * (Nat.log2 y / 64)))))
  have hrounds := foldl_digitRound (by omega) hv (a := (0, x * 2 ^ (63 - Nat.log2 (y / 2 ^ (64 * (Nat.log2 y / 64))))))
    (by rw [Nat.zero_mul, Nat.zero_add]) (dividend_lt hv (by omega) hu)
  rw [hrounds]
  exact shifted_div_mod x y _

end Sys2Proof.Machine
end
